-- ==== Sys2Proof/Word.lean ====
section
/-! DEFINITION. The word types of the machine: the widths that spec/00_scope.md R4 fixes. -/

namespace Sys2Proof

/-- One byte of the image or of the RAM (spec/20_memory.md R30). -/
abbrev Byte := BitVec 8

/-- A 32-bit integer read as two's complement: `pc`, a call-stack cell, a jump delta
(spec/10_state.md R14, R18; spec/30_encoding.md R56). -/
abbrev W32 := BitVec 32

/-- The 64-bit pattern of an IEEE-754 binary64 value. The spec identifies a value with its pattern
(spec/20_memory.md R38), so every operand-stack cell, register and port value has this type. -/
abbrev F64 := BitVec 64

end Sys2Proof
end

