-- ==== Sys2Proof/Syntax.lean ====
section
/-! DEFINITION. The instruction set as syntax: one constructor of `Instr` per row of
spec/opcode_table.json, which is the map of spec/30_encoding.md R59. -/

namespace Sys2Proof

/-- The four general registers, index 0 to 3 (spec/10_state.md R12). -/
inductive Reg where
  | ax
  | bx
  | cx
  | dx
deriving DecidableEq, Repr

/-- The 20 base mnemonics, in the order of spec/30_encoding.md R57. -/
inductive BaseMnemonic where
  | inp | out | pop | push | add | sub | mul | div | sqrt | dup
  | jmp | jmpe | jmpne | jmpl | jmple | jmpg | jmpge | call | ret | hlt
deriving DecidableEq, Repr

/-- The four instruction formats (spec/30_encoding.md R52). -/
inductive Format where
  /-- Opcode only. -/
  | n
  /-- Opcode and a register byte. -/
  | r
  /-- Opcode and a binary64 immediate. -/
  | i
  /-- Opcode and a 32-bit delta. -/
  | j
deriving DecidableEq, Repr

/-- The 26 instruction forms of spec/30_encoding.md R59, in the order of its table. A register operand is
already one of the four registers; an immediate is its 64-bit pattern; a delta its 32-bit pattern. -/
inductive Instr where
  /-- `IN` (R120). -/
  | inp
  /-- `OUT` (R122). -/
  | out
  /-- `POP`, discard (R84). -/
  | pop
  /-- `POP R` (R85). -/
  | popR (r : Reg)
  /-- `POP [v]` (R86). -/
  | popAtV (v : F64)
  /-- `POP [R]` (R87). -/
  | popAtR (r : Reg)
  /-- `PUSH v` (R80). -/
  | pushV (v : F64)
  /-- `PUSH R` (R81). -/
  | pushR (r : Reg)
  /-- `PUSH [v]` (R82). -/
  | pushAtV (v : F64)
  /-- `PUSH [R]` (R83). -/
  | pushAtR (r : Reg)
  /-- `ADD` (R94). -/
  | add
  /-- `SUB` (R95). -/
  | sub
  /-- `MUL` (R96). -/
  | mul
  /-- `DIV` (R97). -/
  | div
  /-- `SQRT` (R98). -/
  | sqrt
  /-- `DUP` (R88). -/
  | dup
  /-- `JMP L` (R104). -/
  | jmp (delta : W32)
  /-- `JMPE L` (R107). -/
  | jmpe (delta : W32)
  /-- `JMPNE L` (R108). -/
  | jmpne (delta : W32)
  /-- `JMPL L` (R109). -/
  | jmpl (delta : W32)
  /-- `JMPLE L` (R110). -/
  | jmple (delta : W32)
  /-- `JMPG L` (R111). -/
  | jmpg (delta : W32)
  /-- `JMPGE L` (R112). -/
  | jmpge (delta : W32)
  /-- `CALL L` (R113). -/
  | call (delta : W32)
  /-- `RET` (R114). -/
  | ret
  /-- `HLT` (R126). -/
  | hlt
deriving DecidableEq, Repr

end Sys2Proof
end

