-- ==== Sys2Proof/Config.lean ====
section
/-! DEFINITION. What an implementation fixes (the open parameters of spec/00_scope.md R4) and the one free value,
`NAN_DRAW`. The parameters stand in the machine's state as constants of the run, so that a statement about every
state covers every value of them; `Params.default` is the value the spec gives each. -/

namespace Sys2Proof

/-- `OPC`: the base opcode of each of the 20 base mnemonics (spec/30_encoding.md R57, spec/92_eei_decisions.md D1).
The six bits hold the spec's condition that each value lies in `0..63`. -/
structure OpcTable where
  inp : BitVec 6
  out : BitVec 6
  pop : BitVec 6
  push : BitVec 6
  add : BitVec 6
  sub : BitVec 6
  mul : BitVec 6
  div : BitVec 6
  sqrt : BitVec 6
  dup : BitVec 6
  jmp : BitVec 6
  jmpe : BitVec 6
  jmpne : BitVec 6
  jmpl : BitVec 6
  jmple : BitVec 6
  jmpg : BitVec 6
  jmpge : BitVec 6
  call : BitVec 6
  ret : BitVec 6
  hlt : BitVec 6
deriving DecidableEq, Repr

/-- The default base opcodes of spec/30_encoding.md R57 (D1; log 1). DESIGN CHOICE of the spec, unsafe for claims
about concrete image bytes if a real part numbers them otherwise. -/
def OpcTable.default : OpcTable where
  inp := 0x00
  out := 0x01
  pop := 0x02
  push := 0x03
  add := 0x04
  sub := 0x05
  mul := 0x06
  div := 0x07
  sqrt := 0x08
  dup := 0x09
  jmp := 0x0A
  jmpe := 0x0B
  jmpne := 0x0C
  jmpl := 0x0D
  jmple := 0x0E
  jmpg := 0x0F
  jmpge := 0x10
  call := 0x11
  ret := 0x12
  hlt := 0x13

/-- The open parameters of spec/00_scope.md R4 that a step reads (log 2). -/
structure Params where
  /-- `OPC` (D1). -/
  opc : OpcTable
  /-- `OSTACK_CAP`, none for unbounded (D3). -/
  ostackCap : Option Nat
  /-- `CSTACK_CAP`, none for unbounded (D3). -/
  cstackCap : Option Nat
  /-- `CMP_ORDERED_EPS`: the ordered comparisons use the tolerance too (D12). -/
  cmpOrderedEps : Bool
  /-- `VALIDATE_UNTAKEN`: a conditional jump that is not taken validates its target too (D10). -/
  validateUntaken : Bool
deriving DecidableEq, Repr

/-- The default of every parameter (spec/00_scope.md R4; log 1, log 3, log 4). -/
def Params.default : Params where
  opc := OpcTable.default
  ostackCap := none
  cstackCap := none
  cmpOrderedEps := false
  validateUntaken := false

/-- The five arithmetic operations (spec/42_arithmetic.md R94 to R98), as the place a NaN comes from. -/
inductive ArithOp where
  | add
  | sub
  | mul
  | div
  | sqrt
deriving DecidableEq, Repr

/-- A NaN pattern as its free parts: the sign, and the fraction less one. Every value of this type is a NaN and every
NaN is one of them (spec/42_arithmetic.md R92: exponent `0x7FF`, fraction non-zero). -/
structure NaNPattern where
  negative : Bool
  payload : Fin 4503599627370495
deriving DecidableEq, Repr, Inhabited

/-- `NAN_DRAW` (spec/42_arithmetic.md R92; D18, U5): which NaN an arithmetic instruction delivers when its result is
NaN. A free value: it has no body, so nothing can be proved of it but that it is a NaN pattern. It may depend on how
many NaNs were drawn before (`State.nanDraws`), on the operation and on its operands (log 10; safe). -/
opaque Config.nanDraw (draw : Nat) (op : ArithOp) (operands : List F64) : NaNPattern

end Sys2Proof
end

