-- ==== Sys2Proof/Machine/Binary64.lean ====
section
/-! DEFINITION. IEEE-754 binary64 (spec/42_arithmetic.md R90 to R92; spec/20_memory.md R38).

Every finite binary64 value is a whole number of UNITS of `2^-1074`, the smallest subnormal. An operation takes its
operands to exact integers of units, computes exactly, and rounds once, by comparing the exact result with binary64
values (`roundNearestEven`). -/

namespace Sys2Proof.Machine

/-! ## Fields of a pattern (spec/20_memory.md R38) -/

/-- Sign, bit 63. -/
def f64Sign (v : F64) : Bool := v.getLsbD 63

/-- Biased exponent, bits 62:52. -/
def f64Exp (v : F64) : Nat := (v.extractLsb' 52 11).toNat

/-- Fraction, bits 51:0. -/
def f64Frac (v : F64) : Nat := (v.extractLsb' 0 52).toNat

/-- `is_finite(v)`: the exponent field is not all ones (spec/30_encoding.md R55). -/
def isFinite (v : F64) : Bool := f64Exp v != 0x7FF

/-- A NaN pattern: exponent `0x7FF`, fraction non-zero (spec/42_arithmetic.md R92). -/
def isNaN (v : F64) : Bool := f64Exp v == 0x7FF && f64Frac v != 0

/-- An infinity of either sign: exponent `0x7FF`, fraction zero. -/
def isInf (v : F64) : Bool := f64Exp v == 0x7FF && f64Frac v == 0

/-- A zero of either sign. -/
def isZero (v : F64) : Bool := f64Exp v == 0 && f64Frac v == 0

/-- The pattern without its sign bit, bits 62:0, as a number. -/
def magnitude (v : F64) : Nat := v.toNat % 2 ^ 63

/-- The magnitude of `+infinity`. -/
def infMagnitude : Nat := 0x7FF0000000000000

/-- The pattern of a sign and a magnitude. -/
def withSign (negative : Bool) (magnitude : Nat) : F64 :=
  BitVec.ofNat 64 ((if negative then 2 ^ 63 else 0) + magnitude)

/-- `fabs`: clears the sign bit (spec/42_arithmetic.md R90). -/
def fabs (v : F64) : F64 := v &&& 0x7FFFFFFFFFFFFFFF

/-- The pattern with its sign bit inverted. -/
def fneg (v : F64) : F64 := v ^^^ 0x8000000000000000

/-! ## The value of a pattern -/

/-- The value of a magnitude in units of `2^-1074`: its fraction where the exponent field `e` is 0, else
`(2^52 + fraction) * 2^(e-1)`. On the magnitude of an infinity it is `2^2098` units, above every finite value. -/
def magUnits (m : Nat) : Nat :=
  if m < 2 ^ 52 then m else (2 ^ 52 + m % 2 ^ 52) * 2 ^ (m / 2 ^ 52 - 1)

/-- The absolute value of a pattern, in units of `2^-1074`. -/
def units (v : F64) : Nat := magUnits (magnitude v)

/-- The value of a pattern, in units of `2^-1074`. An infinity counts as `2^2098` units, above every finite value. -/
def signedUnits (v : F64) : Int := if f64Sign v then -(units v : Int) else (units v : Int)

/-- `floor(v)` of a finite `v`: the mathematical floor, an unbounded integer (spec/20_memory.md R33). -/
def f64Floor (v : F64) : Int := signedUnits v / (2 ^ 1074 : Nat)

/-! ## Rounding, once, to nearest, ties to even (spec/42_arithmetic.md R90) -/

/-- The greatest number below `p + 2^bits` that `holds`, searched bit by bit from `p`, for a predicate that holds up to
some number and not beyond. -/
def greatest (holds : Nat → Bool) : Nat → Nat → Nat
  | 0, p => p
  | k + 1, p => if holds (p + 2 ^ k) then greatest holds k (p + 2 ^ k) else greatest holds k p

/-- The magnitude nearest to an exact non-negative result, ties to even (spec/42_arithmetic.md R90). `order h` compares
`h` HALF units with the exact result. The greatest magnitude not above the result is found first; the midpoint to the
next one decides. Beyond the greatest finite value the next magnitude is that of infinity, so a result at or above
that midpoint overflows to infinity (R91, R92). -/
def roundNearestEven (order : Nat → Ordering) : Nat :=
  let p := greatest (fun m => order (2 * magUnits m) != .gt) 63 0
  if infMagnitude ≤ p then infMagnitude
  else
    match order (magUnits p + magUnits (p + 1)) with
    | .gt => p
    | .lt => p + 1
    | .eq => if p % 2 = 0 then p else p + 1

/-- Rounds the exact quotient `n / d`, in units. -/
def roundRatio (n d : Nat) : Nat := roundNearestEven fun h => compare (h * d) (2 * n)

/-- Rounds the exact square root of `n`, in units. -/
def roundRoot (n : Nat) : Nat := roundNearestEven fun h => compare (h * h) (4 * n)

/-! ## The operations -/

/-- The result of an operation: a value, or a NaN whose sign and payload the spec leaves open
(spec/42_arithmetic.md R92). -/
inductive FResult where
  | value (v : F64)
  | nan
deriving DecidableEq, Repr

/-- `fadd` (spec/42_arithmetic.md R90, R92). An exact zero sum is `-0.0` for two negative zeros and `+0.0` otherwise.
An infinity plus a finite value or plus itself is that infinity, which R92's table does not list (log 17, PRESUMED). -/
def fadd (a b : F64) : FResult :=
  if isNaN a || isNaN b then .nan
  else if isInf a then
    if isInf b && f64Sign a != f64Sign b then .nan else .value a
  else if isInf b then .value b
  else
    let n := signedUnits a + signedUnits b
    if n = 0 then .value (withSign (f64Sign a && f64Sign b) 0)
    else .value (withSign (decide (n < 0)) (roundRatio n.natAbs 1))

/-- `fsub` (spec/42_arithmetic.md R90, R92): IEEE-754's `a - b` is `a + (-b)`. -/
def fsub (a b : F64) : FResult := fadd a (fneg b)

/-- `fmul` (spec/42_arithmetic.md R90, R92): the sign is the exclusive-or of the operands' signs, of a zero
product by R96. An infinity times a non-zero value is an infinity, which R92's table does not list (log 17, PRESUMED). -/
def fmul (a b : F64) : FResult :=
  let negative := f64Sign a != f64Sign b
  if isNaN a || isNaN b then .nan
  else if isInf a || isInf b then
    if isZero a || isZero b then .nan else .value (withSign negative infMagnitude)
  else .value (withSign negative (roundRatio (units a * units b) (2 ^ 1074)))

/-- `fdiv` (spec/42_arithmetic.md R90, R92). An infinity divided by a finite value is an infinity and a finite value
divided by an infinity a zero: IEEE-754's results, which R92's table does not list (log 17, PRESUMED). -/
def fdiv (a b : F64) : FResult :=
  let negative := f64Sign a != f64Sign b
  if isNaN a || isNaN b then .nan
  else if isInf a then
    if isInf b then .nan else .value (withSign negative infMagnitude)
  else if isInf b then .value (withSign negative 0)
  else if isZero b then
    if isZero a then .nan else .value (withSign negative infMagnitude)
  else .value (withSign negative (roundRatio (units a * 2 ^ 1074) (units b)))

/-- `fsqrt` (spec/42_arithmetic.md R90, R92, R98): a zero of either sign is its own root; a negative operand gives
NaN. -/
def fsqrt (a : F64) : FResult :=
  if isNaN a then .nan
  else if isZero a then .value a
  else if f64Sign a then .nan
  else if isInf a then .value a
  else .value (withSign false (roundRoot (units a * 2 ^ 1074)))

/-! ## NaN patterns -/

/-- The 64 bits of a NaN pattern: exponent `0x7FF`, fraction non-zero (spec/42_arithmetic.md R92). -/
def nanBits (p : NaNPattern) : F64 := withSign p.negative (infMagnitude + (p.payload.val + 1))

/-! ## Comparisons: false on NaN; the two zeros are equal (spec/43_control_transfer.md R105) -/

/-- Neither operand is NaN. -/
def ordered (a b : F64) : Bool := !isNaN a && !isNaN b

/-- `flt`: IEEE-754 `<`. -/
def flt (a b : F64) : Bool := ordered a b && decide (signedUnits a < signedUnits b)

/-- `fle`: IEEE-754 `<=`. -/
def fle (a b : F64) : Bool := ordered a b && decide (signedUnits a ≤ signedUnits b)

/-- `fgt`: IEEE-754 `>`. -/
def fgt (a b : F64) : Bool := ordered a b && decide (signedUnits b < signedUnits a)

/-- `fge`: IEEE-754 `>=`. -/
def fge (a b : F64) : Bool := ordered a b && decide (signedUnits b ≤ signedUnits a)

end Sys2Proof.Machine
end

