-- ==== Sys2Proof/Machine/Bytes.lean ====
section
/-! DEFINITION. Byte order: the little-endian reading and writing that the image (spec/20_memory.md R36) and the RAM
(R37) share. -/

namespace Sys2Proof.Machine

/-- `le_n`: the unsigned integer of a byte sequence, lowest offset least significant (spec/20_memory.md R36). -/
def leNat : List Byte → Nat
  | [] => 0
  | b :: bs => b.toNat + 256 * leNat bs

/-- The `n` bytes of a number, least significant first: the inverse of `leNat` (spec/20_memory.md R36). -/
def leBytes : Nat → Nat → List Byte
  | 0, _ => []
  | n + 1, w => BitVec.ofNat 8 w :: leBytes n (w / 256)

/-- The 64-bit pattern of eight bytes, `f64(le_8(..))` (spec/20_memory.md R36, R38). -/
def f64OfBytes (bs : List Byte) : F64 := BitVec.ofNat 64 (leNat bs)

/-- The eight bytes of a 64-bit pattern (spec/20_memory.md R37: the first is bits 7:0, the last bits 63:56). -/
def f64Bytes (v : F64) : List Byte := leBytes 8 v.toNat

/-- The 32-bit pattern of four bytes; its two's complement reading is `BitVec.toInt`
(spec/30_encoding.md R56). -/
def w32OfBytes (bs : List Byte) : W32 := BitVec.ofNat 32 (leNat bs)

/-- The four bytes of a 32-bit pattern (spec/30_encoding.md R56). -/
def w32Bytes (w : W32) : List Byte := leBytes 4 w.toNat

end Sys2Proof.Machine
end

