-- ==== Sys2Proof/WellFormed.lean ====
section
/-! DEFINITION. Which instructions an image can hold. A register operand and a delta have no ill-formed value
(spec/30_encoding.md R56; registers are already one of four); an immediate must be finite (R55). -/

namespace Sys2Proof

/-- An instruction that operand read can deliver: its immediate, if it has one, is finite
(spec/30_encoding.md R55). -/
def Instr.wellFormed : Instr → Bool
  | .popAtV v => Machine.isFinite v
  | .pushV v => Machine.isFinite v
  | .pushAtV v => Machine.isFinite v
  | .inp | .out | .pop | .popR _ | .popAtR _ | .pushR _ | .pushAtR _ | .add | .sub | .mul | .div | .sqrt | .dup
  | .jmp _ | .jmpe _ | .jmpne _ | .jmpl _ | .jmple _ | .jmpg _ | .jmpge _ | .call _ | .ret | .hlt => true

end Sys2Proof
end

