-- ==== Sys2Proof/Decode.lean ====
section
/-! DEFINITION. Fetch's bytes to an instruction, and back (spec/30_encoding.md; spec/40_fetch_decode.md R72, R73).
The base opcodes are an argument everywhere (D1); only `decodeTableWord` fixes them, at the default. -/

namespace Sys2Proof

open Machine (leBytes f64OfBytes f64Bytes w32OfBytes w32Bytes isFinite)

/-! ## The opcode table -/

/-- `OPC(m)` (spec/30_encoding.md R57). -/
def OpcTable.code (t : OpcTable) : BaseMnemonic → BitVec 6
  | .inp => t.inp
  | .out => t.out
  | .pop => t.pop
  | .push => t.push
  | .add => t.add
  | .sub => t.sub
  | .mul => t.mul
  | .div => t.div
  | .sqrt => t.sqrt
  | .dup => t.dup
  | .jmp => t.jmp
  | .jmpe => t.jmpe
  | .jmpne => t.jmpne
  | .jmpl => t.jmpl
  | .jmple => t.jmple
  | .jmpg => t.jmpg
  | .jmpge => t.jmpge
  | .call => t.call
  | .ret => t.ret
  | .hlt => t.hlt

/-- The 20 base mnemonics in the order of spec/30_encoding.md R57. -/
def allMnemonics : List BaseMnemonic :=
  [.inp, .out, .pop, .push, .add, .sub, .mul, .div, .sqrt, .dup, .jmp, .jmpe, .jmpne, .jmpl, .jmple, .jmpg, .jmpge,
    .call, .ret, .hlt]

/-- A legal assignment of base opcodes: pairwise distinct, and `0x3F` kept away from `PUSH` and `POP`
(spec/30_encoding.md R57). -/
def OpcTable.legal (t : OpcTable) : Bool :=
  decide (allMnemonics.map t.code).Nodup && t.push != 0x3F && t.pop != 0x3F

/-- The base mnemonic with a given base opcode, if there is one (spec/40_fetch_decode.md R72). -/
def OpcTable.lookup (t : OpcTable) (base : BitVec 6) : Option BaseMnemonic :=
  allMnemonics.find? fun m => t.code m == base

/-! ## The 26 forms -/

/-- The forms with no operand bytes (format N). -/
inductive NForm where
  | inp | out | pop | add | sub | mul | div | sqrt | dup | ret | hlt
deriving DecidableEq, Repr

/-- The forms with a register byte (format R). -/
inductive RForm where
  | popR | popAtR | pushR | pushAtR
deriving DecidableEq, Repr

/-- The forms with a binary64 immediate (format I). -/
inductive IForm where
  | popAtV | pushV | pushAtV
deriving DecidableEq, Repr

/-- The forms with a 32-bit delta (format J). -/
inductive JForm where
  | jmp | jmpe | jmpne | jmpl | jmple | jmpg | jmpge | call
deriving DecidableEq, Repr

/-- One of the 26 forms of spec/30_encoding.md R59, by its format (R53). -/
inductive Form where
  | n (f : NForm)
  | r (f : RForm)
  | i (f : IForm)
  | j (f : JForm)
deriving DecidableEq, Repr

/-- The table of valid combinations: base mnemonic, `REG_FLAG`, `RAM_FLAG` (spec/30_encoding.md R58). -/
def formOf : BaseMnemonic → Bool → Bool → Option Form
  | .push, false, false => some (.i .pushV)
  | .push, true, false => some (.r .pushR)
  | .push, false, true => some (.i .pushAtV)
  | .push, true, true => some (.r .pushAtR)
  | .pop, false, false => some (.n .pop)
  | .pop, true, false => some (.r .popR)
  | .pop, false, true => some (.i .popAtV)
  | .pop, true, true => some (.r .popAtR)
  | .jmp, false, false => some (.j .jmp)
  | .jmpe, false, false => some (.j .jmpe)
  | .jmpne, false, false => some (.j .jmpne)
  | .jmpl, false, false => some (.j .jmpl)
  | .jmple, false, false => some (.j .jmple)
  | .jmpg, false, false => some (.j .jmpg)
  | .jmpge, false, false => some (.j .jmpge)
  | .call, false, false => some (.j .call)
  | .inp, false, false => some (.n .inp)
  | .out, false, false => some (.n .out)
  | .add, false, false => some (.n .add)
  | .sub, false, false => some (.n .sub)
  | .mul, false, false => some (.n .mul)
  | .div, false, false => some (.n .div)
  | .sqrt, false, false => some (.n .sqrt)
  | .dup, false, false => some (.n .dup)
  | .ret, false, false => some (.n .ret)
  | .hlt, false, false => some (.n .hlt)
  | _, _, _ => none

/-- The instruction of a nullary form. -/
def NForm.instr : NForm → Instr
  | .inp => .inp
  | .out => .out
  | .pop => .pop
  | .add => .add
  | .sub => .sub
  | .mul => .mul
  | .div => .div
  | .sqrt => .sqrt
  | .dup => .dup
  | .ret => .ret
  | .hlt => .hlt

/-- The instruction of a register form and its register. -/
def RForm.instr : RForm → Reg → Instr
  | .popR, r => .popR r
  | .popAtR, r => .popAtR r
  | .pushR, r => .pushR r
  | .pushAtR, r => .pushAtR r

/-- The instruction of an immediate form and its immediate. -/
def IForm.instr : IForm → F64 → Instr
  | .popAtV, v => .popAtV v
  | .pushV, v => .pushV v
  | .pushAtV, v => .pushAtV v

/-- The instruction of a jump form and its delta. -/
def JForm.instr : JForm → W32 → Instr
  | .jmp, d => .jmp d
  | .jmpe, d => .jmpe d
  | .jmpne, d => .jmpne d
  | .jmpl, d => .jmpl d
  | .jmple, d => .jmple d
  | .jmpg, d => .jmpg d
  | .jmpge, d => .jmpge d
  | .call, d => .call d

/-! ## Lengths -/

/-- The length of an instruction, opcode byte included (spec/30_encoding.md R50, R52). -/
def Format.length : Format → Nat
  | .n => 1
  | .r => 2
  | .i => 9
  | .j => 5

/-- The format of a form (spec/30_encoding.md R53). -/
def Form.format : Form → Format
  | .n _ => .n
  | .r _ => .r
  | .i _ => .i
  | .j _ => .j

/-- The format of an instruction (spec/30_encoding.md R52). -/
def Instr.format : Instr → Format
  | .inp | .out | .pop | .add | .sub | .mul | .div | .sqrt | .dup | .ret | .hlt => .n
  | .popR _ | .popAtR _ | .pushR _ | .pushAtR _ => .r
  | .popAtV _ | .pushV _ | .pushAtV _ => .i
  | .jmp _ | .jmpe _ | .jmpne _ | .jmpl _ | .jmple _ | .jmpg _ | .jmpge _ | .call _ => .j

/-- The length of an instruction in bytes. -/
def Instr.length (i : Instr) : Nat := i.format.length

/-- The most bytes an instruction has. -/
def longestInstr : Nat := 9

/-! ## Decoding -/

/-- Why bytes are no instruction. -/
inductive DecodeError where
  /-- There is no opcode byte at `pc` (R71). -/
  | opcodeBeyondImage
  /-- The opcode byte is none of the 26 (R60, R72). -/
  | invalidOpcode
  /-- The operand bytes extend past the image (R73). -/
  | operandBeyondImage
  /-- The register byte is 4 or more (R54). -/
  | invalidRegister
  /-- The immediate is a NaN or an infinity (R55). -/
  | nonFiniteImmediate
deriving DecidableEq, Repr

/-- What the bytes at `pc` are. -/
inductive Decoded where
  | instr (i : Instr)
  | bad (e : DecodeError)
deriving DecidableEq, Repr

/-- The form an opcode byte names: `base` is bits 5:0, `REG_FLAG` bit 7, `RAM_FLAG` bit 6
(spec/30_encoding.md R51; spec/40_fetch_decode.md R72). -/
def decodeOpcode (t : OpcTable) (op : Byte) : Option Form :=
  match t.lookup (op.extractLsb' 0 6) with
  | none => none
  | some m => formOf m (op.getLsbD 7) (op.getLsbD 6)

/-- A register byte, read as an unsigned 8-bit number (spec/30_encoding.md R54). -/
def Reg.ofByte (b : Byte) : Option Reg :=
  match b.toNat with
  | 0 => some .ax
  | 1 => some .bx
  | 2 => some .cx
  | 3 => some .dx
  | _ => none

/-- Operand read: the bytes after the opcode byte (spec/40_fetch_decode.md R73). -/
def readOperand : Form → List Byte → Decoded
  | .n f, _ => .instr f.instr
  | .r f, b :: _ =>
    match Reg.ofByte b with
    | some r => .instr (f.instr r)
    | none => .bad .invalidRegister
  | .j f, b0 :: b1 :: b2 :: b3 :: _ => .instr (f.instr (w32OfBytes [b0, b1, b2, b3]))
  | .i f, b0 :: b1 :: b2 :: b3 :: b4 :: b5 :: b6 :: b7 :: _ =>
    let v := f64OfBytes [b0, b1, b2, b3, b4, b5, b6, b7]
    if isFinite v then .instr (f.instr v) else .bad .nonFiniteImmediate
  | _, _ => .bad .operandBeyondImage

/-- The image's bytes from `pc` on, to an instruction or the reason there is none. Total: every byte sequence has an
answer (spec/40_fetch_decode.md R71 to R73). -/
def decode (t : OpcTable) : List Byte → Decoded
  | [] => .bad .opcodeBeyondImage
  | op :: rest =>
    match decodeOpcode t op with
    | none => .bad .invalidOpcode
    | some f => readOperand f rest

/-! ## Encoding -/

/-- The opcode byte of a base mnemonic and the two flags (spec/30_encoding.md R51, R58). -/
def opcodeByte (t : OpcTable) (m : BaseMnemonic) (reg ram : Bool) : Byte :=
  BitVec.ofBool reg ++ (BitVec.ofBool ram ++ t.code m)

/-- The register byte (spec/30_encoding.md R66; spec/10_state.md R12). -/
def Reg.toByte : Reg → Byte
  | .ax => 0x00
  | .bx => 0x01
  | .cx => 0x02
  | .dx => 0x03

/-- The bytes of an instruction, from the map of spec/30_encoding.md R59 and the formats of R52. -/
def encode (t : OpcTable) : Instr → List Byte
  | .inp => [opcodeByte t .inp false false]
  | .out => [opcodeByte t .out false false]
  | .pop => [opcodeByte t .pop false false]
  | .popR r => [opcodeByte t .pop true false, r.toByte]
  | .popAtV v => opcodeByte t .pop false true :: f64Bytes v
  | .popAtR r => [opcodeByte t .pop true true, r.toByte]
  | .pushV v => opcodeByte t .push false false :: f64Bytes v
  | .pushR r => [opcodeByte t .push true false, r.toByte]
  | .pushAtV v => opcodeByte t .push false true :: f64Bytes v
  | .pushAtR r => [opcodeByte t .push true true, r.toByte]
  | .add => [opcodeByte t .add false false]
  | .sub => [opcodeByte t .sub false false]
  | .mul => [opcodeByte t .mul false false]
  | .div => [opcodeByte t .div false false]
  | .sqrt => [opcodeByte t .sqrt false false]
  | .dup => [opcodeByte t .dup false false]
  | .jmp d => opcodeByte t .jmp false false :: w32Bytes d
  | .jmpe d => opcodeByte t .jmpe false false :: w32Bytes d
  | .jmpne d => opcodeByte t .jmpne false false :: w32Bytes d
  | .jmpl d => opcodeByte t .jmpl false false :: w32Bytes d
  | .jmple d => opcodeByte t .jmple false false :: w32Bytes d
  | .jmpg d => opcodeByte t .jmpg false false :: w32Bytes d
  | .jmpge d => opcodeByte t .jmpge false false :: w32Bytes d
  | .call d => opcodeByte t .call false false :: w32Bytes d
  | .ret => [opcodeByte t .ret false false]
  | .hlt => [opcodeByte t .hlt false false]

/-! ## The host's view of the opcode table -/

/-- The bytes of an instruction whose low `nbits` bits are `w` and whose other bits, up to the longest instruction, are
zero; the first byte is bits 7:0 (spec/20_memory.md R36). -/
def tableBytes (nbits w : Nat) : List Byte := leBytes longestInstr (w % 2 ^ nbits)

/-- The instruction the decoder reads from such bytes, under the default base opcodes of spec/opcode_table.json. -/
def decodeTableWord (nbits w : Nat) : Option Instr :=
  match decode OpcTable.default (tableBytes nbits w) with
  | .instr i => some i
  | .bad _ => none

end Sys2Proof
end

