-- ==== Sys2Proof/Machine/State.lean ====
section
/-! DEFINITION. The state of the machine, its reset, and the reasons a step can stop (spec/10_state.md;
spec/60_exceptions.md R130, R136; spec/70_reset_and_hazards.md R150). -/

namespace Sys2Proof.Machine

/-- The six error kinds (spec/60_exceptions.md R130). -/
inductive ErrorKind where
  /-- R131. -/
  | invalidOperation
  /-- R132. -/
  | invalidRegister
  /-- R133. -/
  | stackUnderflow
  /-- Never raised by the hardware (R135). -/
  | invalidLabel
  /-- Never raised by the hardware (R135). -/
  | invalidFile
  /-- R134. -/
  | invalidRamAddress
deriving DecidableEq, Repr

/-- The four situations the source leaves without a behaviour (spec/60_exceptions.md R136). -/
inductive StopReason where
  /-- Opcode fetch at or past the end of the image, or operand bytes past it (R71, R73; D9). -/
  | fetchBeyondImage
  /-- RAM access at integer address 1017..1023 (R33, R35; D5). -/
  | ramOverrun
  /-- Push onto a full operand or call stack, only under a finite cap (R17; D3). -/
  | stackOverflow
  /-- `IN` after the host signalled that no value will come (R121; D14). -/
  | inputUnavailable
deriving DecidableEq, Repr

/-- The run status (spec/10_state.md R21). -/
inductive Status where
  | running
  | halted
  | error (kind : ErrorKind)
  | unspecified (reason : StopReason)
deriving DecidableEq, Repr

/-- The register file (spec/10_state.md R11, R12). -/
structure Regs where
  ax : F64
  bx : F64
  cx : F64
  dx : F64
deriving DecidableEq, Repr

/-- The RAM as the bytes that differ from their reset value, addresses strictly rising (spec/10_state.md R19;
`Memory.wf`; log 12). -/
abbrev Memory := List Host.Cell

/-- The state of the machine (spec/10_state.md R10), the host's side of the two ports (R24), the constants of the run
that a step reads (R20; spec/00_scope.md R4), and the model's counter of NaN draws. -/
structure State where
  /-- Operand stack, top first (R16). -/
  os : List F64
  /-- Call stack, top first (R18). -/
  cs : List W32
  /-- Register file (R11). -/
  regs : Regs
  /-- RAM (R19). -/
  ram : Memory
  /-- Program counter: between instructions, the offset of the next opcode byte (R14). -/
  pc : W32
  /-- Run status (R21). -/
  status : Status
  /-- Values on the input port that no `IN` has taken, next first (R24; spec/44_io_and_halt.md R121). -/
  input : List F64
  /-- The host has signalled that no value will come after those in `input` (spec/44_io_and_halt.md R121). -/
  inputClosed : Bool
  /-- The output log, oldest first (R24; spec/44_io_and_halt.md R123). -/
  output : List F64
  /-- The loaded image, `IMAGE`; its length is `IMAGE_LEN` (R20; log 5). A constant of the run. -/
  image : List Byte
  /-- The open parameters (spec/00_scope.md R4; log 2). A constant of the run. -/
  params : Params
  /-- The model's own: how many NaN results have been drawn (log 10). -/
  nanDraws : Nat
deriving DecidableEq, Repr

/-- Why a step stops with no next state. Each carries the stopped state as spec/60_exceptions.md R141 and D19 freeze
it, its status `Unspecified(reason)`. An `Error(kind)` is no fault: it is taken (R140), as a next state. -/
inductive Fault where
  /-- `Unspecified(FetchBeyondImage)`: raised by the step, at the opcode fetch or at operand read (R71, R73). Safe: the
  spec gives no behaviour there (U2). -/
  | fetchBeyondImage (stopped : State)
  /-- `Unspecified(RamOverrun)`: raised by the four RAM forms at integer address 1017..1023 (R35). Safe: the eight
  bytes do not all exist (U1). -/
  | ramOverrun (stopped : State)
  /-- `Unspecified(StackOverflow)`: raised by a push onto a full stack, only under a finite cap (R17). Safe (U3). -/
  | stackOverflow (stopped : State)
  /-- `Unspecified(InputUnavailable)`: raised by `IN` when no value will come (R121). Safe: the source names no error
  for it (U4). -/
  | inputUnavailable (stopped : State)
deriving DecidableEq, Repr

/-- Why the model gives an instruction no meaning. -/
inductive Refusal where
  /-- Raised by an arm of `exec` whose instruction has no meaning yet. Safe. No arm raises it: every instruction has its
  meaning. -/
  | notModelled (mnemonic : String)
deriving DecidableEq, Repr

/-- The outcome of a step of this machine. -/
abbrev Out := Host.Outcome State Fault Refusal

/-- The fault of an `Unspecified` stop (spec/60_exceptions.md R136). -/
def StopReason.fault : StopReason → State → Fault
  | .fetchBeyondImage => .fetchBeyondImage
  | .ramOverrun => .ramOverrun
  | .stackOverflow => .stackOverflow
  | .inputUnavailable => .inputUnavailable

/-! ## Updates, one per piece of state a step changes -/

/-- `os <- os'`. -/
def State.setOs (s : State) (os : List F64) : State := { s with os := os }

/-- `cs <- cs'`. -/
def State.setCs (s : State) (cs : List W32) : State := { s with cs := cs }

/-- `x[0..3] <- regs`. -/
def State.setRegs (s : State) (regs : Regs) : State := { s with regs := regs }

/-- `ram <- ram'`. -/
def State.setRam (s : State) (ram : Memory) : State := { s with ram := ram }

/-- `pc <- pc'`. -/
def State.setPc (s : State) (pc : W32) : State := { s with pc := pc }

/-- `status <- status'`. -/
def State.setStatus (s : State) (status : Status) : State := { s with status := status }

/-- The values still on the input port. -/
def State.setInput (s : State) (input : List F64) : State := { s with input := input }

/-- The output log. -/
def State.setOutput (s : State) (output : List F64) : State := { s with output := output }

/-- The count of NaN draws. -/
def State.setNanDraws (s : State) (nanDraws : Nat) : State := { s with nanDraws := nanDraws }

/-! ## Reset -/

/-- Reset, the source's "Load" (spec/10_state.md R26; spec/70_reset_and_hazards.md R150): the image is installed and
every piece of state has its reset value. `input` is what the host supplies from the start of the run. Nothing of an
earlier run is an argument (R27; log 19). -/
def State.load (params : Params) (image : List Byte) (input : List F64) : State where
  os := []
  cs := []
  regs := { ax := 0, bx := 0, cx := 0, dx := 0 }
  ram := []
  pc := 0
  status := .running
  input := input
  inputClosed := false
  output := []
  image := image
  params := params
  nanDraws := 0

/-- The machine right after reset, under the default parameters, with no program loaded and nothing on the input port
(log 5, log 6: DESIGN CHOICE). -/
def State.reset : State := State.load Params.default [] []

end Sys2Proof.Machine
end

