-- ==== Sys2Proof/Machine/Ops.lean ====
section
/-! DEFINITION. The shared operations: taking an error and stopping, the register file, the RAM, the two stacks, the
program counter, the two ports, and the host's own actions. Every meaning is built from these. -/

namespace Sys2Proof.Machine

/-! ## Ending a run -/

/-- `raise Error(kind)`: taking an error (spec/60_exceptions.md R140). The status records the kind; nothing else changes
and nothing is undone (R141); `pc` stays where the bytes read left it. There is no return from an error (R142), so
no operation stands beside this one but a new `State.load`. -/
def takeError (kind : ErrorKind) (s : State) : Out := .next (s.setStatus (.error kind))

/-- `stop Unspecified(reason)`: a fault that carries the stopped state (spec/60_exceptions.md R136; D19; log 9). -/
def stopUnspecified (reason : StopReason) (s : State) : Out :=
  .fault (reason.fault (s.setStatus (.unspecified reason)))

/-- `halt`: `status <- Halted` (spec/44_io_and_halt.md R126). -/
def halt (s : State) : Out := .next (s.setStatus .halted)

/-! ## Registers (spec/10_state.md R11) -/

/-- `x[r]`. -/
def Regs.read (x : Regs) : Reg → F64
  | .ax => x.ax
  | .bx => x.bx
  | .cx => x.cx
  | .dx => x.dx

/-- `x[r] <- v`. -/
def Regs.write (x : Regs) (r : Reg) (v : F64) : Regs :=
  match r with
  | .ax => { x with ax := v }
  | .bx => { x with bx := v }
  | .cx => { x with cx := v }
  | .dx => { x with dx := v }

/-- `x[r]` of the machine. -/
def State.readReg (s : State) (r : Reg) : F64 := s.regs.read r

/-- `x[r] <- v` of the machine. -/
def State.writeReg (s : State) (r : Reg) (v : F64) : State := s.setRegs (s.regs.write r v)

/-! ## RAM (spec/20_memory.md R32, R37) -/

/-- `RAM_SIZE` (spec/00_scope.md R4). -/
def ramSize : Nat := 1024

/-- What a RAM byte that nothing has written holds (spec/10_state.md R26, spec/20_memory.md R41). -/
def unlistedByte : Byte := 0x00

/-- `ram[a]`. -/
def Memory.read : Memory → Nat → Byte
  | [], _ => unlistedByte
  | (k, c) :: m, a => if k = a then c else Memory.read m a

/-- `ram[a] <- b`, keeping the canonical form: a byte equal to the reset value is not listed. -/
def Memory.write : Memory → Nat → Byte → Memory
  | [], a, b => if b = unlistedByte then [] else [(a, b)]
  | (k, c) :: m, a, b =>
    if a < k then (if b = unlistedByte then (k, c) :: m else (a, b) :: (k, c) :: m)
    else if a = k then (if b = unlistedByte then m else (k, b) :: m)
    else (k, c) :: Memory.write m a b

/-- Addresses strictly rising from a lower bound, and no entry equal to the reset value. -/
def Memory.wfFrom : Nat → Memory → Bool
  | _, [] => true
  | lo, (k, c) :: m => decide (lo ≤ k) && c != unlistedByte && Memory.wfFrom (k + 1) m

/-- The canonical form: addresses strictly rising, no entry equal to what an unlisted address reads as. -/
def Memory.wf (m : Memory) : Bool := Memory.wfFrom 0 m

/-- Every listed address is one of the 1,024 of the RAM (spec/10_state.md R19). -/
def Memory.inRam (m : Memory) : Bool := m.all fun c => decide (c.1 < ramSize)

/-- The `n` bytes from address `a` up. -/
def Memory.readBytes (m : Memory) : Nat → Nat → List Byte
  | 0, _ => []
  | n + 1, a => m.read a :: Memory.readBytes m n (a + 1)

/-- Writes bytes from address `a` up. -/
def Memory.writeBytes (m : Memory) (a : Nat) : List Byte → Memory
  | [] => m
  | b :: bs => Memory.writeBytes (m.write a b) (a + 1) bs

/-- `f64(MemRead(a, 8))` (spec/20_memory.md R32). -/
def Memory.load (m : Memory) (a : Nat) : F64 := f64OfBytes (m.readBytes 8 a)

/-- `MemWrite(a, 8, bits(w))` (spec/20_memory.md R32): byte `a + i` gets bits `8i+7 : 8i`. -/
def Memory.store (m : Memory) (a : Nat) (w : F64) : Memory := m.writeBytes a (f64Bytes w)

/-! ## Program counter (spec/10_state.md R14) -/

/-- `IMAGE_LEN` (spec/00_scope.md R4). -/
def State.imageLen (s : State) : Nat := s.image.length

/-- `pc` past an instruction that starts at `pc`: what fetch and operand read leave on entry to execute
(spec/40_fetch_decode.md R74). No reached state wraps `pc` (R15; log 15, DEDUCED). -/
def State.past (s : State) (f : Format) : State := s.setPc (s.pc + BitVec.ofNat 32 f.length)

/-! ## Operand stack (spec/10_state.md R16, R17) -/

/-- A push would find the stack at its capacity. Unbounded stacks are never full (spec/10_state.md R17; log 16). -/
def stackFull (cap : Option Nat) (depth : Nat) : Bool :=
  match cap with
  | none => false
  | some c => decide (c ≤ depth)

/-- The operand stack is at `OSTACK_CAP`. -/
def State.osFull (s : State) : Bool := stackFull s.params.ostackCap s.os.length

/-- `os_push(v)` as the last act of an instruction. A full stack gets nothing (R17; log 21, DEDUCED). -/
def pushOs (v : F64) (s : State) : Out :=
  if s.osFull then stopUnspecified .stackOverflow s else .next (s.setOs (v :: s.os))

/-- `if os_depth < 1: raise Error(StackUnderflow)`, then `os_pop()`; what follows gets the value
(spec/60_exceptions.md R133). -/
def popOs (s : State) (k : F64 → State → Out) : Out :=
  match s.os with
  | [] => takeError .stackUnderflow s
  | w :: rest => k w (s.setOs rest)

/-- `if os_depth < 2: raise Error(StackUnderflow)`, then `rhs <- os_pop(); lhs <- os_pop()`; what follows gets `lhs` and
`rhs` (spec/42_arithmetic.md R93; spec/43_control_transfer.md R106; spec/60_exceptions.md R133). -/
def pop2Os (s : State) (k : F64 → F64 → State → Out) : Out :=
  match s.os with
  | rhs :: lhs :: rest => k lhs rhs (s.setOs rest)
  | [_] | [] => takeError .stackUnderflow s

/-- `os_push` of an arithmetic result. A NaN is taken from the draw `NAN_DRAW` (spec/42_arithmetic.md R92; log 10). -/
def pushResult (op : ArithOp) (operands : List F64) (result : FResult) (s : State) : Out :=
  match result with
  | .value v => pushOs v s
  | .nan => pushOs (nanBits (Config.nanDraw s.nanDraws op operands)) (s.setNanDraws (s.nanDraws + 1))

/-! ## Call stack (spec/10_state.md R17, R18) -/

/-- The call stack is at `CSTACK_CAP`. -/
def State.csFull (s : State) : Bool := stackFull s.params.cstackCap s.cs.length

/-- `cs_push(n)`; what follows runs with the cell pushed. -/
def pushCs (n : W32) (s : State) (k : State → Out) : Out :=
  if s.csFull then stopUnspecified .stackOverflow s else k (s.setCs (n :: s.cs))

/-- `if cs_depth < 1: raise Error(StackUnderflow)`, then `cs_pop()` (spec/60_exceptions.md R133). -/
def popCs (s : State) (k : W32 → State → Out) : Out :=
  match s.cs with
  | [] => takeError .stackUnderflow s
  | n :: rest => k n (s.setCs rest)

/-! ## Ports (spec/44_io_and_halt.md R121, R123) -/

/-- `out_emit(w)`: appends to the output log. The host always accepts (spec/44_io_and_halt.md R123; log 23). -/
def State.emit (s : State) (w : F64) : State := s.setOutput (s.output ++ [w])

/-- The host puts values on the input port, after those already there (spec/44_io_and_halt.md R121). Not a step. -/
def State.supplyInput (s : State) (ws : List F64) : State := s.setInput (s.input ++ ws)

/-- The host signals that no value will come after those on the port: end of input, or a token that is no number
(spec/44_io_and_halt.md R121; log 6). Not a step. -/
def State.closeInput (s : State) : State := { s with inputClosed := true }

end Sys2Proof.Machine
end

