-- ==== Sys2Proof/Machine/Arithmetic.lean ====
section
/-! DEFINITION. `ADD`, `SUB`, `MUL`, `DIV` and `SQRT` (spec/42_arithmetic.md). No trap, no flag (R91); a NaN result is
pushed like any other (R92). -/

namespace Sys2Proof.Machine

/-- "Pop `rhs`, pop `lhs`, push `lhs⊕rhs`" (spec/42_arithmetic.md R93). -/
def binaryArith (op : ArithOp) (f : F64 → F64 → FResult) (s : State) : Out :=
  pop2Os (s.past .n) fun lhs rhs s' => pushResult op [lhs, rhs] (f lhs rhs) s'

/-- `ADD` (spec/42_arithmetic.md R94). -/
def execAdd (s : State) : Out := binaryArith .add fadd s

/-- `SUB` (spec/42_arithmetic.md R95). -/
def execSub (s : State) : Out := binaryArith .sub fsub s

/-- `MUL` (spec/42_arithmetic.md R96). -/
def execMul (s : State) : Out := binaryArith .mul fmul s

/-- `DIV` (spec/42_arithmetic.md R97). Division by zero is no error. -/
def execDiv (s : State) : Out := binaryArith .div fdiv s

/-- `SQRT` (spec/42_arithmetic.md R98). -/
def execSqrt (s : State) : Out :=
  popOs (s.past .n) fun x s' => pushResult .sqrt [x] (fsqrt x) s'

end Sys2Proof.Machine
end

