-- ==== Sys2Proof/Machine/Flags.lean ====
section
/-! DEFINITION. The machine has no flags and no condition codes (spec/10_state.md R22): a conditional jump computes its
predicate from two stack cells and leaves no record. These are the predicates (spec/43_control_transfer.md R105;
spec/92_eei_decisions.md D12, D23, D26). -/

namespace Sys2Proof.Machine

/-- `EPS`: the binary64 value nearest `10^-9` (spec/43_control_transfer.md R105). -/
def eps : F64 := 0x3E112E0BE826D695

/-- `eq`: `flt(fabs(fsub(lhs, rhs)), EPS)`. A NaN difference is not below `EPS`, whichever NaN it is, so the comparison
takes no draw (log 22, DEDUCED). -/
def cmpEq (lhs rhs : F64) : Bool :=
  match fsub lhs rhs with
  | .value d => flt (fabs d) eps
  | .nan => false

/-- `ne`: the negation of `eq`. -/
def cmpNe (lhs rhs : F64) : Bool := !cmpEq lhs rhs

/-- `lt`; under `CMP_ORDERED_EPS`, `lhs < rhs and not eq` (D12). -/
def cmpLt (orderedEps : Bool) (lhs rhs : F64) : Bool :=
  flt lhs rhs && !(orderedEps && cmpEq lhs rhs)

/-- `le`; under `CMP_ORDERED_EPS`, the tolerant `lt`, or `eq` (D12). -/
def cmpLe (orderedEps : Bool) (lhs rhs : F64) : Bool :=
  if orderedEps then cmpLt true lhs rhs || cmpEq lhs rhs else fle lhs rhs

/-- `gt`; under `CMP_ORDERED_EPS`, `lhs > rhs and not eq` (D12). -/
def cmpGt (orderedEps : Bool) (lhs rhs : F64) : Bool :=
  fgt lhs rhs && !(orderedEps && cmpEq lhs rhs)

/-- `ge`; under `CMP_ORDERED_EPS`, the tolerant `gt`, or `eq` (D12). -/
def cmpGe (orderedEps : Bool) (lhs rhs : F64) : Bool :=
  if orderedEps then cmpGt true lhs rhs || cmpEq lhs rhs else fge lhs rhs

end Sys2Proof.Machine
end

