-- ==== Sys2Proof/Machine/Operands.lean ====
section
/-! DEFINITION. The operand forms that need computing: a RAM address from a binary64 value (spec/20_memory.md R33), for
an immediate or a register, and a jump target from a delta (spec/43_control_transfer.md R100 to R102). An
immediate, a register value and a delta as such need none. -/

namespace Sys2Proof.Machine

/-! ## RAM addresses -/

/-- What a binary64 value is as a RAM address (spec/20_memory.md R33). -/
inductive RamAddr where
  /-- An integer address whose eight bytes exist. -/
  | ok (a : Nat)
  /-- Not finite, or outside `[0, 1024)`: `InvalidRamAddress` (R34). -/
  | invalid
  /-- 1017..1023: `Unspecified(RamOverrun)` (R35). -/
  | overrun
deriving DecidableEq, Repr

/-- `ram_addr(v)` (spec/20_memory.md R33). -/
def ramAddr (v : F64) : RamAddr :=
  if isFinite v then
    let a := f64Floor v
    if a < 0 ∨ (ramSize : Int) ≤ a then .invalid
    else if 1016 < a then .overrun
    else .ok a.toNat
  else .invalid

/-- `a <- ram_addr(v)`; what follows gets the address (spec/20_memory.md R33 to R35). -/
def withRamAddr (v : F64) (s : State) (k : Nat → Out) : Out :=
  match ramAddr v with
  | .ok a => k a
  | .invalid => takeError .invalidRamAddress s
  | .overrun => stopUnspecified .ramOverrun s

/-- `a <- ram_addr(v); os_push(f64(MemRead(a, 8)))` (spec/41_stack_moves.md R82, R83). -/
def pushFromRam (v : F64) (s : State) : Out := withRamAddr v s fun a => pushOs (s.ram.load a) s

/-- The depth check, `w <- os_pop(); a <- ram_addr(v); MemWrite(a, 8, bits(w))`, in this order
(spec/41_stack_moves.md R86, R87; D13). -/
def popToRam (v : F64) (s : State) : Out :=
  popOs s fun w s' => withRamAddr v s' fun a => .next (s'.setRam (s'.ram.store a w))

/-! ## Jump targets -/

/-- `target(A, delta) = A + 1 + delta`, on unbounded integers (spec/43_control_transfer.md R100, R101), where `a` is
the offset of the jump's opcode byte. -/
def jumpTarget (a delta : W32) : Int := a.toInt + 1 + delta.toInt

/-- The delta the assembler emits for a jump at `a` to `target` (spec/30_encoding.md R68). -/
def deltaTo (a target : Int) : W32 := BitVec.ofInt 32 (target - a - 1)

/-- A legal target: `0 <= t < IMAGE_LEN` (spec/43_control_transfer.md R102). -/
def State.legalTarget (s : State) (t : Int) : Bool := decide (0 ≤ t) && decide (t < s.imageLen)

/-- `if t < 0 or t >= IMAGE_LEN: raise Error(InvalidOperation)`, else `pc <- t` (spec/43_control_transfer.md R102). -/
def jumpTo (t : Int) (s : State) : Out :=
  if s.legalTarget t then .next (s.setPc (BitVec.ofInt 32 t)) else takeError .invalidOperation s

end Sys2Proof.Machine
end

