-- ==== Sys2Proof/Machine/ControlTransfer.lean ====
section
/-! DEFINITION. The jumps, `CALL` and `RET` (spec/43_control_transfer.md). On entry `s.pc` is `A`, the offset of the
opcode byte (log 11). -/

namespace Sys2Proof.Machine

/-- `cond_jump(pred)` (spec/43_control_transfer.md R106). Both cells are popped whether or not the branch is taken.
Under `VALIDATE_UNTAKEN` the range test is made before the predicate is looked at (D10). -/
def condJump (pred : F64 → F64 → Bool) (delta : W32) (s : State) : Out :=
  pop2Os (s.past .j) fun lhs rhs s' =>
    let t := jumpTarget s.pc delta
    if s.params.validateUntaken && !s.legalTarget t then takeError .invalidOperation s'
    else if pred lhs rhs then jumpTo t s'
    else .next s'

/-- `JMP L` (spec/43_control_transfer.md R104). -/
def execJmp (delta : W32) (s : State) : Out := jumpTo (jumpTarget s.pc delta) (s.past .j)

/-- `JMPE L` (spec/43_control_transfer.md R107). -/
def execJmpe (delta : W32) (s : State) : Out := condJump cmpEq delta s

/-- `JMPNE L` (spec/43_control_transfer.md R108). -/
def execJmpne (delta : W32) (s : State) : Out := condJump cmpNe delta s

/-- `JMPL L` (spec/43_control_transfer.md R109). -/
def execJmpl (delta : W32) (s : State) : Out := condJump (cmpLt s.params.cmpOrderedEps) delta s

/-- `JMPLE L` (spec/43_control_transfer.md R110). -/
def execJmple (delta : W32) (s : State) : Out := condJump (cmpLe s.params.cmpOrderedEps) delta s

/-- `JMPG L` (spec/43_control_transfer.md R111). -/
def execJmpg (delta : W32) (s : State) : Out := condJump (cmpGt s.params.cmpOrderedEps) delta s

/-- `JMPGE L` (spec/43_control_transfer.md R112). -/
def execJmpge (delta : W32) (s : State) : Out := condJump (cmpGe s.params.cmpOrderedEps) delta s

/-- `CALL L` (spec/43_control_transfer.md R113): the push comes before the validation (D11). -/
def execCall (delta : W32) (s : State) : Out :=
  pushCs (s.past .j).pc (s.past .j) fun s' => jumpTo (jumpTarget s.pc delta) s'

/-- `RET` (spec/43_control_transfer.md R114): the popped value is not validated (D25). -/
def execRet (s : State) : Out := popCs (s.past .n) fun n s' => .next (s'.setPc n)

end Sys2Proof.Machine
end

