-- ==== Sys2Proof/Machine/IoHalt.lean ====
section
/-! DEFINITION. `IN`, `OUT` and `HLT` (spec/44_io_and_halt.md), and the exit code the host reads
(spec/60_exceptions.md R137). -/

namespace Sys2Proof.Machine

/-- `IN` (spec/44_io_and_halt.md R120, R121). With a value on the port it takes the next one and pushes it as it is. With
none, and none to come, it stops. With none yet, the machine is blocked: the state stays as it was before the `IN`, `pc` at
its opcode byte, and the step is made again until the host acts (log 7). The value is taken before the push looks for room (log 20, DEDUCED). -/
def execIn (s : State) : Out :=
  match s.input with
  | w :: rest => pushOs w ((s.past .n).setInput rest)
  | [] => if s.inputClosed then stopUnspecified .inputUnavailable (s.past .n) else .next s

/-- `OUT` (spec/44_io_and_halt.md R122). -/
def execOut (s : State) : Out := popOs (s.past .n) fun w s' => .next (s'.emit w)

/-- `HLT` (spec/44_io_and_halt.md R126). -/
def execHlt (s : State) : Out := halt (s.past .n)

/-- The default exit code of an error kind (spec/60_exceptions.md R137, D17; log 14). Host side: no step reads it. -/
def ErrorKind.exitCode : ErrorKind → Nat
  | .invalidOperation => 1
  | .invalidRegister => 2
  | .stackUnderflow => 3
  | .invalidLabel => 4
  | .invalidFile => 5
  | .invalidRamAddress => 6

/-- The default exit code of a finished run: none while it runs, and none for a stop that the source does not know
(spec/60_exceptions.md R136, R137). -/
def Status.exitCode : Status → Option Nat
  | .running => none
  | .halted => some 0
  | .error k => some k.exitCode
  | .unspecified _ => none

end Sys2Proof.Machine
end

