-- ==== Sys2Proof/Machine/StackMoves.lean ====
section
/-! DEFINITION. `PUSH`, `POP` and `DUP` (spec/41_stack_moves.md). Every meaning takes the state with `pc` at the
instruction's own opcode byte and moves it past the instruction first (spec/40_fetch_decode.md R74; log 11). Moves copy all 64
bits (R89). -/

namespace Sys2Proof.Machine

/-- `PUSH v` (spec/41_stack_moves.md R80). -/
def execPushV (v : F64) (s : State) : Out := pushOs v (s.past .i)

/-- `PUSH R` (spec/41_stack_moves.md R81). -/
def execPushR (r : Reg) (s : State) : Out := pushOs (s.readReg r) (s.past .r)

/-- `PUSH [v]` (spec/41_stack_moves.md R82). -/
def execPushAtV (v : F64) (s : State) : Out := pushFromRam v (s.past .i)

/-- `PUSH [R]` (spec/41_stack_moves.md R83). -/
def execPushAtR (r : Reg) (s : State) : Out := pushFromRam (s.readReg r) (s.past .r)

/-- `POP` (spec/41_stack_moves.md R84). -/
def execPop (s : State) : Out := popOs (s.past .n) fun _ s' => .next s'

/-- `POP R` (spec/41_stack_moves.md R85). -/
def execPopR (r : Reg) (s : State) : Out := popOs (s.past .r) fun w s' => .next (s'.writeReg r w)

/-- `POP [v]` (spec/41_stack_moves.md R86). -/
def execPopAtV (v : F64) (s : State) : Out := popToRam v (s.past .i)

/-- `POP [R]` (spec/41_stack_moves.md R87). -/
def execPopAtR (r : Reg) (s : State) : Out := popToRam (s.readReg r) (s.past .r)

/-- `DUP` (spec/41_stack_moves.md R88): the depth check, then `os_push(os_top())`. -/
def execDup (s : State) : Out := popOs (s.past .n) fun w _ => pushOs w (s.past .n)

end Sys2Proof.Machine
end

