-- ==== Sys2Proof/Machine/Dispatch.lean ====
section
/-! DEFINITION. The dispatch: one arm per instruction form, one direct call of its meaning
(spec/40_fetch_decode.md R75; spec/30_encoding.md R59). -/

namespace Sys2Proof.Machine

def exec (i : Instr) (s : State) : Host.Outcome State Fault Refusal :=
  match i with
  | .inp => Sys2Proof.Machine.execIn s
  | .out => Sys2Proof.Machine.execOut s
  | .pop => Sys2Proof.Machine.execPop s
  | .popR r => Sys2Proof.Machine.execPopR r s
  | .popAtV v => Sys2Proof.Machine.execPopAtV v s
  | .popAtR r => Sys2Proof.Machine.execPopAtR r s
  | .pushV v => Sys2Proof.Machine.execPushV v s
  | .pushR r => Sys2Proof.Machine.execPushR r s
  | .pushAtV v => Sys2Proof.Machine.execPushAtV v s
  | .pushAtR r => Sys2Proof.Machine.execPushAtR r s
  | .add => Sys2Proof.Machine.execAdd s
  | .sub => Sys2Proof.Machine.execSub s
  | .mul => Sys2Proof.Machine.execMul s
  | .div => Sys2Proof.Machine.execDiv s
  | .sqrt => Sys2Proof.Machine.execSqrt s
  | .dup => Sys2Proof.Machine.execDup s
  | .jmp delta => Sys2Proof.Machine.execJmp delta s
  | .jmpe delta => Sys2Proof.Machine.execJmpe delta s
  | .jmpne delta => Sys2Proof.Machine.execJmpne delta s
  | .jmpl delta => Sys2Proof.Machine.execJmpl delta s
  | .jmple delta => Sys2Proof.Machine.execJmple delta s
  | .jmpg delta => Sys2Proof.Machine.execJmpg delta s
  | .jmpge delta => Sys2Proof.Machine.execJmpge delta s
  | .call delta => Sys2Proof.Machine.execCall delta s
  | .ret => Sys2Proof.Machine.execRet s
  | .hlt => Sys2Proof.Machine.execHlt s

end Sys2Proof.Machine
end

