-- ==== Sys2Proof/Machine/Fetch.lean ====
section
/-! DEFINITION. Fetch, decode and operand read as the step uses them (spec/40_fetch_decode.md R71 to R73), and where an
instruction's bytes lie in the image. -/

namespace Sys2Proof.Machine

/-- The image's bytes from `pc` on: none where `pc < 0` or `pc >= IMAGE_LEN` (spec/20_memory.md R31;
spec/40_fetch_decode.md R71). -/
def State.fetchBytes (s : State) : List Byte :=
  if s.pc.toInt < 0 then [] else s.image.drop s.pc.toInt.toNat

/-- The instruction at `pc`, or why there is none. -/
def State.decodeAtPc (s : State) : Decoded := decode s.params.opc s.fetchBytes

/-- `pc` after `n` bytes were read. -/
def State.advance (s : State) (n : Nat) : State := s.setPc (s.pc + BitVec.ofNat 32 n)

/-- How a step ends when there is no instruction at `pc`: which stop, and how far `pc` has advanced
(spec/40_fetch_decode.md R71 to R73; spec/60_exceptions.md R131, R132). -/
def decodeStop (e : DecodeError) (s : State) : Out :=
  match e with
  | .opcodeBeyondImage => stopUnspecified .fetchBeyondImage s
  | .invalidOpcode => takeError .invalidOperation (s.advance 1)
  | .operandBeyondImage => stopUnspecified .fetchBeyondImage (s.advance 1)
  | .invalidRegister => takeError .invalidRegister (s.past .r)
  | .nonFiniteImmediate => takeError .invalidOperation (s.past .i)

/-- An image with bytes written over it from an offset; zeros fill a gap before the offset. -/
def overwriteImage (image : List Byte) (offset : Nat) (bytes : List Byte) : List Byte :=
  (image ++ List.replicate (offset - image.length) 0).take offset ++ bytes ++ image.drop (offset + bytes.length)

/-- The state with bytes standing in the image at `pc`, and running, so that the next step fetches them (log 18). -/
def State.placeAtPc (s : State) (bytes : List Byte) : State :=
  { s with image := overwriteImage s.image s.pc.toInt.toNat bytes, status := .running }

end Sys2Proof.Machine
end

