-- ==== Sys2Proof/Machine/Step.lean ====
section
/-! DEFINITION. One step (spec/40_fetch_decode.md R70) and where the host places an instruction. -/

namespace Sys2Proof.Machine

/-- One step of the machine (spec/40_fetch_decode.md R70). Only a running machine steps; every other status is
absorbing, so a stopped machine keeps its state (spec/10_state.md R21; log 8). -/
def step (s : State) : Host.Outcome State Fault Refusal :=
  match s.status with
  | .running =>
    match s.decodeAtPc with
    | .instr i => exec i s
    | .bad e => decodeStop e s
  | .halted | .error _ | .unspecified _ => .next s

/-- The state with the instruction whose low `nbits` bits are `w` (the others zero, up to the longest instruction)
standing in the image at `pc` (log 18). It stands for the load of a program. -/
def State.withFetchWord (s : State) (nbits w : Nat) : State := s.placeAtPc (tableBytes nbits w)

end Sys2Proof.Machine
end

