-- ==== Sys2Proof/Safety.lean ====
section
/-! DEFINITION. What counts as a good state and a good run, and the other terms that claims use. -/

namespace Sys2Proof.Machine

/-- A stack no deeper than its capacity (spec/10_state.md R17). -/
def withinCap (cap : Option Nat) (depth : Nat) : Bool :=
  match cap with
  | none => true
  | some c => decide (depth ≤ c)

/-- The operand stack is no deeper than `OSTACK_CAP`. -/
def State.osWithinCap (s : State) : Bool := withinCap s.params.ostackCap s.os.length

/-- The call stack is no deeper than `CSTACK_CAP`. -/
def State.csWithinCap (s : State) : Bool := withinCap s.params.cstackCap s.cs.length

/-- What holds of every state a run reaches, between instructions and at a stop. -/
structure State.Inv (s : State) : Prop where
  /-- The RAM keeps its canonical form. -/
  ramCanonical : s.ram.wf = true
  /-- The RAM lists no address outside its 1,024 bytes (spec/10_state.md R19). -/
  ramInRange : s.ram.inRam = true
  /-- `IMAGE_LEN <= 2^31 - 1` (spec/00_scope.md R4, D4). -/
  imageFits : s.imageLen ≤ 2 ^ 31 - 1
  /-- `0 ≤ PC` (spec/10_state.md R15). -/
  pcNonneg : 0 ≤ s.pc.toInt
  /-- `PC ≤ image.len()` (spec/10_state.md R15). -/
  pcInImage : s.pc.toInt ≤ s.imageLen
  /-- Every return offset lies in `1..IMAGE_LEN` (spec/43_control_transfer.md R114, D25). -/
  returnsInImage : ∀ n ∈ s.cs, 1 ≤ n.toInt ∧ n.toInt ≤ s.imageLen
  /-- Neither stack is deeper than its capacity (spec/10_state.md R17). -/
  osBounded : s.osWithinCap = true
  csBounded : s.csWithinCap = true

/-- The run ended successfully: only `HLT` does this (spec/40_fetch_decode.md R77). -/
def State.succeeded (s : State) : Bool := s.status == .halted

/-- The run ended in one of the error kinds or in an `Unspecified` stop (spec/40_fetch_decode.md R77). -/
def State.failed (s : State) : Bool :=
  match s.status with
  | .running | .halted => false
  | .error _ | .unspecified _ => true

/-- The rational value of a finite pattern; on an infinity, `±2^1024`. -/
def ratValue (v : F64) : ℚ := (signedUnits v : ℚ) / 2 ^ 1074

/-- `r` is the exact result `x` rounded once to binary64, to nearest, ties to even (spec/42_arithmetic.md R90): no NaN; an
infinity exactly where `|x|` is at least the midpoint of the greatest finite value and `2^1024`, of the sign of `x`; else
no finite value is nearer to `x`, and where another is as near, `r` is the one with an even fraction. -/
structure RoundedOnce (x : ℝ) (r : F64) : Prop where
  notNaN : isNaN r = false
  overflows : isInf r = true ↔ (2 : ℝ) ^ 1024 - 2 ^ 970 ≤ |x|
  infiniteSign : isInf r = true → (f64Sign r = true ↔ x < 0)
  nearest : isFinite r = true → ∀ q : F64, isFinite q = true → |((ratValue r : ℚ) : ℝ) - x| ≤ |((ratValue q : ℚ) : ℝ) - x|
  tieToEven : isFinite r = true → ∀ q : F64, isFinite q = true → ratValue q ≠ ratValue r →
    |((ratValue q : ℚ) : ℝ) - x| = |((ratValue r : ℚ) : ℝ) - x| → r.getLsbD 0 = false

/-- The RAM `m'` is `m` with the eight bytes of `w` at address `a`, and every other byte as it was
(spec/20_memory.md R32). -/
structure StoredAt (m m' : Memory) (a : Nat) (w : F64) : Prop where
  stored : ∀ i, i < 8 → m'.read (a + i) = w.extractLsb' (8 * i) 8
  frame : ∀ b, b < a ∨ a + 8 ≤ b → m'.read b = m.read b

/-- The six conditional jumps, each with its predicate (spec/43_control_transfer.md R107 to R112), for a value of
`CMP_ORDERED_EPS`. -/
def condJumps (orderedEps : Bool) : List ((W32 → Instr) × (F64 → F64 → Bool)) :=
  [(.jmpe, cmpEq), (.jmpne, cmpNe), (.jmpl, cmpLt orderedEps), (.jmple, cmpLe orderedEps), (.jmpg, cmpGt orderedEps),
    (.jmpge, cmpGe orderedEps)]

/-- The four binary arithmetic instructions, each with its operation (spec/42_arithmetic.md R94 to R97). -/
def binaryOps : List (Instr × (F64 → F64 → FResult)) := [(.add, fadd), (.sub, fsub), (.mul, fmul), (.div, fdiv)]

end Sys2Proof.Machine
end

