-- ==== Sys2Proof/Certificates/Slice0/Obligations.lean ====
section
/-! DEFINITION. The statements for the provers. Each docstring says what is claimed and which rule of spec/ it
formalises; a clause that rests on the model's own choice names its log entry. -/

open Sys2Proof Sys2Proof.Machine

/-- For every parameter set, image and input stream, the state after Load has pc 0, all four registers +0.0, both
stacks empty, every RAM byte 0x00, status Running, an empty output log, the supplied input and the loaded image.
(R26.) -/
def Obligations.LoadGivesEveryResetValue : Prop :=
  (∀ (p : Params) (image : List Byte) (input : List F64),
    (State.load p image input).pc = 0 ∧ (∀ r : Reg, (State.load p image input).readReg r = 0x0000000000000000#64) ∧
    (State.load p image input).os = [] ∧ (State.load p image input).cs = [] ∧
    (∀ a, (State.load p image input).ram.read a = 0x00#8) ∧ (State.load p image input).status = .running ∧
    (State.load p image input).output = [] ∧ (State.load p image input).input = input ∧
    (State.load p image input).image = image)

/-- If the machine is running, pc is not negative and the image's bytes from pc on decode to the instruction i, then
step is exec of i at that same state. The state still has pc at the opcode byte: each meaning moves pc past the
instruction itself (log 11), so nothing stands around exec. (R70, R72, R75, 40_fetch_decode.md section 1.) -/
def Obligations.StepRunsTheDecodedInstruction : Prop :=
  ∀ (s : State) (i : Instr), s.status = .running → 0 ≤ s.pc.toInt →
    decode s.params.opc (s.image.drop s.pc.toInt.toNat) = .instr i → step s = exec i s

/-- Where the status is Halted, Error or Unspecified, a step leaves the state as it is. That the absorbing state
answers itself as its next state is the model's choice (log 8). (R21, R142, 10_state.md section 5.) -/
def Obligations.StoppedMachineKeepsItsState : Prop :=
  ∀ s : State, s.status ≠ .running → step s = .next s

/-- If the machine is running and pc is negative or at least IMAGE_LEN, the step is the fault fetchBeyondImage,
carrying the state with nothing changed but its status, Unspecified(FetchBeyondImage) (log 9). (R71, R31, R136.) -/
def Obligations.FetchOutsideTheImageStops : Prop :=
  ∀ s : State, s.status = .running → (s.pc.toInt < 0 ∨ (s.image.length : Int) ≤ s.pc.toInt) →
    step s = .fault (.fetchBeyondImage { s with status := .unspecified .fetchBeyondImage })

/-- If the machine is running, the byte at pc names a form, and fewer bytes remain than the form's length, the step is
the fault fetchBeyondImage with pc left after the opcode byte and no operand byte judged. (R73, R31, R136.) -/
def Obligations.TruncatedOperandStops : Prop :=
  ∀ (s : State) (op : Byte) (rest : List Byte) (f : Form), s.status = .running → s.fetchBytes = op :: rest →
    decodeOpcode s.params.opc op = some f → rest.length + 1 < f.format.length →
    step s = .fault (.fetchBeyondImage { s with pc := s.pc + 1#32, status := .unspecified .fetchBeyondImage })

/-- If the machine is running and the byte at pc is none of the forms, the step takes Error(InvalidOperation) with pc
advanced by one and nothing else changed. Under the default table the illegal bytes are exactly 0x14 to 0x3F and those
of 0x40 to 0xFF other than 42, 43, 82, 83, C2, C3; under every legal opcode table 0xFF is illegal. (R60, R72, R131,
R57.) -/
def Obligations.IllegalOpcodeByteIsInvalidOperation : Prop :=
  (∀ (s : State) (op : Byte) (rest : List Byte), s.status = .running → s.fetchBytes = op :: rest →
    decodeOpcode s.params.opc op = none →
    step s = .next { s with pc := s.pc + 1#32, status := .error .invalidOperation }) ∧
  (∀ op : Byte, decodeOpcode OpcTable.default op = none ↔
    (0x14 ≤ op.toNat ∧ op.toNat ≤ 0x3F) ∨
    (0x40 ≤ op.toNat ∧ op ∉ [0x42#8, 0x43#8, 0x82#8, 0x83#8, 0xC2#8, 0xC3#8])) ∧
  (∀ t : OpcTable, t.legal = true → decodeOpcode t 0xFF#8 = none)

/-- If the machine is running and the byte at pc names a register form, then a register byte of 4 or more takes
Error(InvalidRegister) with pc two past the opcode and nothing else changed, and a register byte 0, 1, 2 or 3 runs the
form on AX, BX, CX or DX. (R54.) -/
def Obligations.RegisterByteIsCheckedAtOperandRead : Prop :=
  ∀ (s : State) (op b : Byte) (rest : List Byte) (f : RForm), s.status = .running →
    s.fetchBytes = op :: b :: rest → decodeOpcode s.params.opc op = some (.r f) →
    (4 ≤ b.toNat → step s = .next { s with pc := s.pc + 2#32, status := .error .invalidRegister }) ∧
    (∀ r : Reg, [Reg.ax, Reg.bx, Reg.cx, Reg.dx][b.toNat]? = some r → step s = exec (f.instr r) s)

/-- If the machine is running, the byte at pc names an immediate form and eight bytes follow, the immediate is their
little-endian pattern: where its exponent field is 0x7FF the step takes Error(InvalidOperation) with pc nine past the
opcode and nothing else changed, else the form runs on that very pattern. (R55, R73, R131.) -/
def Obligations.ImmediateMustBeFinite : Prop :=
  ∀ (s : State) (op : Byte) (bytes rest : List Byte) (f : IForm) (v : F64), s.status = .running →
    bytes.length = 8 → s.fetchBytes = op :: (bytes ++ rest) → decodeOpcode s.params.opc op = some (.i f) →
    v.toNat = leNat bytes →
    (v.extractLsb' 52 11 = 0x7FF#11 →
      step s = .next { s with pc := s.pc + 9#32, status := .error .invalidOperation }) ∧
    (v.extractLsb' 52 11 ≠ 0x7FF#11 → step s = exec (f.instr v) s)

/-- If the machine is running, the byte at pc names a jump form and four bytes follow, the step runs the form on a
delta d whose signed value is u for u below 2^31 and u - 2^32 otherwise, u being the little-endian number of the four
bytes. (R56.) -/
def Obligations.JumpOperandIsSignedLittleEndian : Prop :=
  ∀ (s : State) (op : Byte) (bytes rest : List Byte) (f : JForm), s.status = .running →
    bytes.length = 4 → s.fetchBytes = op :: (bytes ++ rest) → decodeOpcode s.params.opc op = some (.j f) →
    ∃ d : W32, step s = exec (f.instr d) s ∧
      d.toInt = if leNat bytes < 2 ^ 31 then (leNat bytes : Int) else (leNat bytes : Int) - 2 ^ 32

/-- For every legal table of base opcodes, every well-formed instruction (each register, each finite immediate, each
delta) and whatever bytes follow, decoding the instruction's encoding gives the instruction. (R50, R52, R53, R54, R55,
R56, R57, R58, R59.) -/
def Obligations.DecodeInvertsEncode : Prop :=
  ∀ (t : OpcTable) (i : Instr) (rest : List Byte), t.legal = true → i.wellFormed = true →
    decode t (encode t i ++ rest) = .instr i

/-- For every opcode table, if bytes decode to an instruction then the instruction is well formed and the bytes are
its encoding followed by the rest: no bit of the instruction is ignored, so each instruction has one encoding. (R50,
R52, R58, R59, R61.) -/
def Obligations.EncodeInvertsDecode : Prop :=
  ∀ (t : OpcTable) (bytes : List Byte) (i : Instr), decode t bytes = .instr i →
    i.wellFormed = true ∧ ∃ rest, bytes = encode t i ++ rest

/-- The opcode byte of a base mnemonic and two flags has REG_FLAG in bit 7, RAM_FLAG in bit 6 and OPC of the mnemonic
in bits 5:0, and decoding reads the three fields there. Where an opcode byte names a form, bit 7 is set exactly where
the form takes a register index, and bit 6 exactly where its operand is a RAM address: PUSH [v], PUSH [R], POP [v] and
POP [R]. Not all combinations are valid: ADD with REG_FLAG is none of the forms. (R51.) -/
def Obligations.OpcodeByteHasThreeFields : Prop :=
  (∀ (t : OpcTable) (m : BaseMnemonic) (reg ram : Bool),
    (opcodeByte t m reg ram).getLsbD 7 = reg ∧ (opcodeByte t m reg ram).getLsbD 6 = ram ∧
    (opcodeByte t m reg ram).extractLsb' 0 6 = t.code m) ∧
  (∀ (t : OpcTable) (op : Byte), decodeOpcode t op =
    (t.lookup (op.extractLsb' 0 6)).bind fun m => formOf m (op.getLsbD 7) (op.getLsbD 6)) ∧
  (∀ (t : OpcTable) (op : Byte) (f : Form), decodeOpcode t op = some f →
    (op.getLsbD 7 = true ↔ f.format = .r) ∧
    (op.getLsbD 6 = true ↔ f ∈ [.i .pushAtV, .r .pushAtR, .i .popAtV, .r .popAtR])) ∧
  formOf .add true false = none

/-- For every legal table of base opcodes, the opcode bytes that name a form are 26 of the 256. (R57, R59, R60.) -/
def Obligations.TwentySixOpcodeBytesAreValid : Prop :=
  ∀ t : OpcTable, t.legal = true →
    ((List.range 256).filter fun b => (decodeOpcode t (BitVec.ofNat 8 b)).isSome).length = 26

/-- Under the default table: 83 01 is PUSH BX, C2 03 is POP [DX], 03 with the bytes of 2.0 is PUSH 2.0, 42 with the
bytes of 16.0 is POP [16], 0A FD FF FF FF is JMP -3, 00 is IN, 04 is ADD, 13 is HLT, 83 04 has a bad register, FF is
illegal. (R59, 95_test_vectors.md V-enc.) -/
def Obligations.SpecWordsDecode : Prop :=
  decode OpcTable.default [0x83#8, 0x01#8] = .instr (.pushR .bx) ∧
  decode OpcTable.default [0xC2#8, 0x03#8] = .instr (.popAtR .dx) ∧
  decode OpcTable.default [0x03#8, 0#8, 0#8, 0#8, 0#8, 0#8, 0#8, 0#8, 0x40#8] = .instr (.pushV 0x4000000000000000#64) ∧
  decode OpcTable.default [0x42#8, 0#8, 0#8, 0#8, 0#8, 0#8, 0#8, 0x30#8, 0x40#8] = .instr (.popAtV 0x4030000000000000#64) ∧
  decode OpcTable.default [0x0A#8, 0xFD#8, 0xFF#8, 0xFF#8, 0xFF#8] = .instr (.jmp (BitVec.ofInt 32 (-3))) ∧
  decode OpcTable.default [0x00#8] = .instr .inp ∧ decode OpcTable.default [0x04#8] = .instr .add ∧
  decode OpcTable.default [0x13#8] = .instr .hlt ∧
  decode OpcTable.default [0x83#8, 0x04#8] = .bad .invalidRegister ∧
  decode OpcTable.default [0xFF#8] = .bad .invalidOpcode

/-- Under the default opcode table and with pc not negative, if the table decoder reads instruction i from a word,
then after that word is placed at pc the next step is exec of i. Placing a word is the model's stand-in for loading a
program (log 18). (R70, R72, R150.) -/
def Obligations.PlacedWordIsTheNextInstruction : Prop :=
  ∀ (s : State) (nbits w : Nat) (i : Instr), s.params.opc = OpcTable.default → 0 ≤ s.pc.toInt →
    decodeTableWord nbits w = some i → step (s.withFetchWord nbits w) = exec i (s.withFetchWord nbits w)

/-- For every canonical RAM and address 0..1016: a load is the pattern of the eight bytes there, least significant
first; a store of a pattern leaves bits 8i+7:8i in byte a+i for i below 8, and every byte outside a..a+7 reads as
before. (R32, R37.) -/
def Obligations.RamMovesEightBytesLittleEndian : Prop :=
  ∀ (m : Memory) (a : Nat) (w : F64), m.wf = true → a ≤ 1016 →
    (m.load a).toNat = (m.read a).toNat + (m.read (a + 1)).toNat * 256 + (m.read (a + 2)).toNat * 256 ^ 2 +
      (m.read (a + 3)).toNat * 256 ^ 3 + (m.read (a + 4)).toNat * 256 ^ 4 + (m.read (a + 5)).toNat * 256 ^ 5 +
      (m.read (a + 6)).toNat * 256 ^ 6 + (m.read (a + 7)).toNat * 256 ^ 7 ∧
    StoredAt m (m.store a w) a w

/-- For every canonical RAM: loading where a pattern was just stored gives the same 64 bits; a load at an address
eight or more away gives what it gave before; and the store keeps the RAM canonical. (R38, R41, R45.) -/
def Obligations.RamLoadAfterStore : Prop :=
  ∀ (m : Memory) (a b : Nat) (w : F64), m.wf = true →
    (m.store a w).load a = w ∧ (a + 8 ≤ b ∨ b + 8 ≤ a → (m.store a w).load b = m.load b) ∧ (m.store a w).wf = true

/-- A value that is not finite is InvalidRamAddress. For a finite one, with a the floor of its exact value: a below 0
or at least 1024 is InvalidRamAddress, a in 1017..1023 is RamOverrun, and a in 0..1016 is the address; the two RAM
instruction shapes raise exactly these stops. (R33.) -/
def Obligations.RamAddressOfEveryValue : Prop :=
  (∀ v : F64, (isFinite v = false → ramAddr v = .invalid) ∧
    (isFinite v = true → (⌊ratValue v⌋ < 0 ∨ 1024 ≤ ⌊ratValue v⌋) → ramAddr v = .invalid) ∧
    (isFinite v = true → 1017 ≤ ⌊ratValue v⌋ → ⌊ratValue v⌋ ≤ 1023 → ramAddr v = .overrun) ∧
    (∀ a : Nat, isFinite v = true → ⌊ratValue v⌋ = (a : Int) → a ≤ 1016 → ramAddr v = .ok a)) ∧
  (∀ (v : F64) (s : State) (k : Nat → Out),
    (ramAddr v = .invalid → withRamAddr v s k = .next { s with status := .error .invalidRamAddress }) ∧
    (ramAddr v = .overrun → withRamAddr v s k = .fault (.ramOverrun { s with status := .unspecified .ramOverrun })) ∧
    (∀ a, ramAddr v = .ok a → withRamAddr v s k = k a))

/-- For every finite pattern, the exact value the model computes with is (-1)^sign times fraction * 2^-1074 where the
exponent field is 0, and (-1)^sign times (2^52 + fraction) * 2^(exponent - 1075) otherwise. (R38, 00_scope.md section
5, 93_implementation_defined.md G2.) -/
def Obligations.ValueOfAPattern : Prop :=
  ∀ v : F64, isFinite v = true →
    ratValue v = (if v.getLsbD 63 then -1 else 1) *
      (if (v.extractLsb' 52 11).toNat = 0 then ((v.extractLsb' 0 52).toNat : ℚ) * (2 : ℚ) ^ (-1074 : ℤ)
       else (2 ^ 52 + (v.extractLsb' 0 52).toNat : ℚ) * (2 : ℚ) ^ (((v.extractLsb' 52 11).toNat : ℤ) - 1075))

/-- With room on the operand stack, PUSH v answers the state with v on top and pc nine further, PUSH R the state with
x[r] on top and pc two further, nothing else changed. On a full stack (only under a finite cap) each is the fault
stackOverflow with nothing pushed. What full means and that nothing is pushed then are the model's readings of R17
(log 16, log 21). (R80, R81, R17.) -/
def Obligations.PushImmediateAndRegister : Prop :=
  ∀ (s : State) (v : F64) (r : Reg),
    (s.osFull = false → exec (.pushV v) s = .next { s with os := v :: s.os, pc := s.pc + 9#32 }) ∧
    (s.osFull = false → exec (.pushR r) s = .next { s with os := s.readReg r :: s.os, pc := s.pc + 2#32 }) ∧
    (s.osFull = true → exec (.pushV v) s =
      .fault (.stackOverflow { s with pc := s.pc + 9#32, status := .unspecified .stackOverflow })) ∧
    (s.osFull = true → exec (.pushR r) s =
      .fault (.stackOverflow { s with pc := s.pc + 2#32, status := .unspecified .stackOverflow }))

/-- Where ram_addr of the operand (v, or x[r]) is address a and there is room, the form answers the state with the
eight bytes at a pushed and pc past the form, nothing else changed; where it is invalid, the form takes
InvalidRamAddress with nothing pushed; at 1017..1023 it is the fault ramOverrun; with the stack full (only under a
finite cap) it is the fault stackOverflow. What full means and that nothing is pushed then are the model's readings of
R17 (log 16, log 21). (R82, R83, R34, R35, R17.) -/
def Obligations.PushFromRamLoadsEightBytes : Prop :=
  ∀ (s : State) (v : F64) (r : Reg) (a : Nat),
    (ramAddr v = .ok a → s.osFull = false →
      exec (.pushAtV v) s = .next { s with os := s.ram.load a :: s.os, pc := s.pc + 9#32 }) ∧
    (ramAddr (s.readReg r) = .ok a → s.osFull = false →
      exec (.pushAtR r) s = .next { s with os := s.ram.load a :: s.os, pc := s.pc + 2#32 }) ∧
    (ramAddr v = .ok a → s.osFull = true → exec (.pushAtV v) s =
      .fault (.stackOverflow { s with pc := s.pc + 9#32, status := .unspecified .stackOverflow })) ∧
    (ramAddr (s.readReg r) = .ok a → s.osFull = true → exec (.pushAtR r) s =
      .fault (.stackOverflow { s with pc := s.pc + 2#32, status := .unspecified .stackOverflow })) ∧
    (ramAddr v = .invalid →
      exec (.pushAtV v) s = .next { s with pc := s.pc + 9#32, status := .error .invalidRamAddress }) ∧
    (ramAddr (s.readReg r) = .invalid →
      exec (.pushAtR r) s = .next { s with pc := s.pc + 2#32, status := .error .invalidRamAddress }) ∧
    (ramAddr v = .overrun → exec (.pushAtV v) s =
      .fault (.ramOverrun { s with pc := s.pc + 9#32, status := .unspecified .ramOverrun })) ∧
    (ramAddr (s.readReg r) = .overrun → exec (.pushAtR r) s =
      .fault (.ramOverrun { s with pc := s.pc + 2#32, status := .unspecified .ramOverrun }))

/-- On a non-empty operand stack POP answers the state with the top cell gone and pc one further, nothing else
changed; on an empty one it takes Error(StackUnderflow) with pc one further; its encoding is the one byte OPC(POP).
(R84.) -/
def Obligations.PopDiscardsTheTop : Prop :=
  (∀ (s : State) (w : F64) (rest : List F64), s.os = w :: rest →
    exec .pop s = .next { s with os := rest, pc := s.pc + 1#32 }) ∧
  (∀ s : State, s.os = [] →
    exec .pop s = .next { s with pc := s.pc + 1#32, status := .error .stackUnderflow }) ∧
  (∀ t : OpcTable, encode t .pop = [opcodeByte t .pop false false])

/-- On a non-empty operand stack POP R answers a state in which x[r] is the popped pattern, every other register is as
before, the cell is gone, pc is two further, and nothing else has changed. On an empty stack it takes
Error(StackUnderflow) with pc two further. (R85, R11, R13.) -/
def Obligations.PopRegisterWritesThatRegisterOnly : Prop :=
  (∀ (s : State) (r : Reg) (w : F64) (rest : List F64), s.os = w :: rest →
    ∃ x : Regs, exec (.popR r) s = .next { s with os := rest, pc := s.pc + 2#32, regs := x } ∧
      x.read r = w ∧ ∀ q, q ≠ r → x.read q = s.readReg q) ∧
  (∀ (s : State) (r : Reg), s.os = [] →
    exec (.popR r) s = .next { s with pc := s.pc + 2#32, status := .error .stackUnderflow })

/-- From a canonical RAM and a non-empty operand stack, where ram_addr of the operand (v, or x[r]) is address a, the
form answers a state whose RAM holds the popped pattern in bytes a..a+7 and reads as before at every other address,
with the cell gone, pc past the form, and nothing else changed (the address register among it). (R86, R87, R32, R41.)
-/
def Obligations.PopToRamStoresEightBytes : Prop :=
  ∀ (s : State) (w : F64) (rest : List F64) (v : F64) (r : Reg) (a : Nat), s.ram.wf = true → s.os = w :: rest →
    (ramAddr v = .ok a → ∃ m : Memory,
      exec (.popAtV v) s = .next { s with os := rest, ram := m, pc := s.pc + 9#32 } ∧ StoredAt s.ram m a w) ∧
    (ramAddr (s.readReg r) = .ok a → ∃ m : Memory,
      exec (.popAtR r) s = .next { s with os := rest, ram := m, pc := s.pc + 2#32 } ∧ StoredAt s.ram m a w)

/-- With a non-empty operand stack: where ram_addr of the operand is invalid the form takes InvalidRamAddress, where
it is 1017..1023 it is the fault ramOverrun; either way the cell is already popped and RAM is as before. With an empty
stack the depth check comes first: StackUnderflow. (R86, R87, R134, R35, R139.) -/
def Obligations.PopToRamWithABadAddress : Prop :=
  ∀ (s : State) (v : F64) (r : Reg),
    (s.os = [] → exec (.popAtV v) s = .next { s with pc := s.pc + 9#32, status := .error .stackUnderflow }) ∧
    (s.os = [] → exec (.popAtR r) s = .next { s with pc := s.pc + 2#32, status := .error .stackUnderflow }) ∧
    (∀ (w : F64) (rest : List F64), s.os = w :: rest →
      (ramAddr v = .invalid → exec (.popAtV v) s =
        .next { s with os := rest, pc := s.pc + 9#32, status := .error .invalidRamAddress }) ∧
      (ramAddr (s.readReg r) = .invalid → exec (.popAtR r) s =
        .next { s with os := rest, pc := s.pc + 2#32, status := .error .invalidRamAddress }) ∧
      (ramAddr v = .overrun → exec (.popAtV v) s = .fault (.ramOverrun
        { s with os := rest, pc := s.pc + 9#32, status := .unspecified .ramOverrun })) ∧
      (ramAddr (s.readReg r) = .overrun → exec (.popAtR r) s = .fault (.ramOverrun
        { s with os := rest, pc := s.pc + 2#32, status := .unspecified .ramOverrun })))

/-- With a cell and room, DUP answers the state with the top cell twice and pc one further, nothing else changed; on
an empty stack it takes Error(StackUnderflow); on a full one (only under a finite cap) it is the fault stackOverflow
with the stack as it was; its encoding is the one byte OPC(DUP). What full means and that the stack is left as it was
are the model's readings of R17 (log 16, log 21). (R88, R17.) -/
def Obligations.DupCopiesTheTop : Prop :=
  (∀ (s : State) (w : F64) (rest : List F64), s.os = w :: rest → s.osFull = false →
    exec .dup s = .next { s with os := w :: w :: rest, pc := s.pc + 1#32 }) ∧
  (∀ s : State, s.os = [] →
    exec .dup s = .next { s with pc := s.pc + 1#32, status := .error .stackUnderflow }) ∧
  (∀ (s : State) (w : F64) (rest : List F64), s.os = w :: rest → s.osFull = true → exec .dup s =
    .fault (.stackOverflow { s with pc := s.pc + 1#32, status := .unspecified .stackOverflow })) ∧
  (∀ t : OpcTable, encode t .dup = [opcodeByte t .dup false false])

/-- With room: PUSH v then POP R leaves the operand stack as it was and x[r] equal to v. From a canonical RAM with a
cell w on the stack, room beneath it and address a: POP [u] then PUSH [u] leaves w on top again. Both hold for every
pattern, NaNs included. (R89, R38.) -/
def Obligations.MovesKeepAllSixtyFourBits : Prop :=
  (∀ (s : State) (v : F64) (r : Reg), s.osFull = false →
    ∃ t u, exec (.pushV v) s = .next t ∧ exec (.popR r) t = .next u ∧ u.readReg r = v ∧ u.os = s.os) ∧
  (∀ (s : State) (u w : F64) (rest : List F64) (a : Nat), s.ram.wf = true → s.os = w :: rest →
    s.osWithinCap = true → ramAddr u = .ok a →
    ∃ t t', exec (.popAtV u) s = .next t ∧ exec (.pushAtV u) t = .next t' ∧ t'.os = s.os)

/-- For each of the four with its operation: with at least two cells on a stack within its cap, the instruction
answers the state with the two replaced by the result, lhs being the cell beneath the top, and pc one further, nothing
else changed; where the operation's result is NaN the pushed pattern is some NaN, whichever the free value is, and
only the model's count of draws has changed besides (log 10). (R93, R94, R95, R96, R97, R92.) -/
def Obligations.BinaryArithmeticPopsTwoPushesOne : Prop :=
  ∀ (s : State) (lhs rhs : F64) (rest : List F64) (i : Instr) (f : F64 → F64 → FResult),
    (i, f) ∈ binaryOps → s.os = rhs :: lhs :: rest → s.osWithinCap = true →
    (∀ v, f lhs rhs = .value v → exec i s = .next { s with os := v :: rest, pc := s.pc + 1#32 }) ∧
    (f lhs rhs = .nan → ∃ w : F64, isNaN w = true ∧
      exec i s = .next { s with os := w :: rest, pc := s.pc + 1#32, nanDraws := s.nanDraws + 1 })

/-- With at least one cell on a stack within its cap, SQRT answers the state with the top cell replaced by its square
root and pc one further, nothing else changed; where the result is NaN the pushed pattern is some NaN, whichever the
free value is, and only the model's count of draws has changed besides (log 10). (R98, R92.) -/
def Obligations.SqrtReplacesTheTop : Prop :=
  ∀ (s : State) (x : F64) (rest : List F64), s.os = x :: rest → s.osWithinCap = true →
    (∀ v, fsqrt x = .value v → exec .sqrt s = .next { s with os := v :: rest, pc := s.pc + 1#32 }) ∧
    (fsqrt x = .nan → ∃ w : F64, isNaN w = true ∧
      exec .sqrt s = .next { s with os := w :: rest, pc := s.pc + 1#32, nanDraws := s.nanDraws + 1 })

/-- For all finite patterns a and b, fadd and fsub each give a value that is the exact rational sum or difference
rounded once: nearest, ties to even, an infinity of the right sign exactly on overflow. An exact zero sum is -0.0
where both addends are negative and +0.0 otherwise, which is IEEE-754's rule for the zero sums that R92's table does
not list (log 17). (R90, R92, 42_arithmetic.md section 1.) -/
def Obligations.SumsAreRoundedOnce : Prop :=
  ∀ a b : F64, isFinite a = true → isFinite b = true →
    (∃ r, fadd a b = .value r ∧ RoundedOnce ((ratValue a + ratValue b : ℚ) : ℝ) r ∧
      (ratValue a + ratValue b = 0 → f64Sign r = (f64Sign a && f64Sign b))) ∧
    (∃ r, fsub a b = .value r ∧ RoundedOnce ((ratValue a - ratValue b : ℚ) : ℝ) r ∧
      (ratValue a - ratValue b = 0 → f64Sign r = (f64Sign a && !f64Sign b)))

/-- For all finite patterns a and b, fmul gives the exact product rounded once, and fdiv, where b is not a zero, the
exact quotient rounded once: nearest, ties to even, an infinity of the right sign exactly on overflow. The sign of
either result, a zero among them, is the exclusive-or of the operand signs: of a zero product by R96, of a zero
quotient by IEEE-754 (log 17). (R90, R96, 42_arithmetic.md section 1.) -/
def Obligations.ProductsAndQuotientsAreRoundedOnce : Prop :=
  ∀ a b : F64, isFinite a = true → isFinite b = true →
    (∃ r, fmul a b = .value r ∧ RoundedOnce ((ratValue a * ratValue b : ℚ) : ℝ) r ∧
      f64Sign r = (f64Sign a != f64Sign b)) ∧
    (isZero b = false → ∃ r, fdiv a b = .value r ∧ RoundedOnce ((ratValue a / ratValue b : ℚ) : ℝ) r ∧
      f64Sign r = (f64Sign a != f64Sign b))

/-- For every finite pattern whose value is not negative, fsqrt gives a value that is the exact real square root
rounded once. (R90, R98, 42_arithmetic.md section 1.) -/
def Obligations.SquareRootIsRoundedOnce : Prop :=
  ∀ a : F64, isFinite a = true → 0 ≤ ratValue a →
    ∃ r, fsqrt a = .value r ∧ RoundedOnce (Real.sqrt ((ratValue a : ℚ) : ℝ)) r

/-- Every row of the corner table holds: division of a finite non-zero p by a zero is an infinity of the right sign;
0/0, inf/inf, 0*inf, inf-inf, the root of a negative value and every operation on a NaN give NaN; the roots of -0.0,
+0.0 and +inf are themselves; x + (-x) and x - x are +0.0 for finite x; -0.0 + -0.0 is -0.0; a finite exact result of
magnitude 2^1024 - 2^970 (the midpoint above the greatest finite value) or more, too large under round to nearest, is
an infinity of its sign. The drawn pattern is always a NaN, and every NaN pattern is one of those it ranges over.
(R92.) -/
def Obligations.DefaultResultsAtTheCorners : Prop :=
  (∀ p : F64, isFinite p = true → isZero p = false → f64Sign p = false →
    fdiv p 0x0000000000000000#64 = .value 0x7FF0000000000000#64 ∧
    fdiv (fneg p) 0x8000000000000000#64 = .value 0x7FF0000000000000#64 ∧
    fdiv p 0x8000000000000000#64 = .value 0xFFF0000000000000#64 ∧
    fdiv (fneg p) 0x0000000000000000#64 = .value 0xFFF0000000000000#64) ∧
  (∀ a b : F64, isZero a = true → isZero b = true → fdiv a b = .nan) ∧
  (∀ a b : F64, isInf a = true → isInf b = true → fdiv a b = .nan) ∧
  (∀ a b : F64, isZero a = true → isInf b = true → fmul a b = .nan ∧ fmul b a = .nan) ∧
  fadd 0x7FF0000000000000#64 0xFFF0000000000000#64 = .nan ∧ fadd 0xFFF0000000000000#64 0x7FF0000000000000#64 = .nan ∧
  fsub 0x7FF0000000000000#64 0x7FF0000000000000#64 = .nan ∧ fsub 0xFFF0000000000000#64 0xFFF0000000000000#64 = .nan ∧
  (∀ x : F64, isNaN x = false → signedUnits x < 0 → fsqrt x = .nan) ∧
  fsqrt 0x8000000000000000#64 = .value 0x8000000000000000#64 ∧
  fsqrt 0x0000000000000000#64 = .value 0x0000000000000000#64 ∧
  fsqrt 0x7FF0000000000000#64 = .value 0x7FF0000000000000#64 ∧
  (∀ a b : F64, isNaN a = true ∨ isNaN b = true →
    fadd a b = .nan ∧ fsub a b = .nan ∧ fmul a b = .nan ∧ fdiv a b = .nan) ∧
  (∀ a : F64, isNaN a = true → fsqrt a = .nan) ∧
  (∀ x : F64, isFinite x = true → fadd x (fneg x) = .value 0x0000000000000000#64 ∧
    fsub x x = .value 0x0000000000000000#64) ∧
  fadd 0x8000000000000000#64 0x8000000000000000#64 = .value 0x8000000000000000#64 ∧
  (∀ a b : F64, isFinite a = true → isFinite b = true →
    (2 ^ 1024 - 2 ^ 970 ≤ ratValue a + ratValue b → fadd a b = .value 0x7FF0000000000000#64) ∧
    (ratValue a + ratValue b ≤ -(2 ^ 1024 - 2 ^ 970) → fadd a b = .value 0xFFF0000000000000#64) ∧
    (2 ^ 1024 - 2 ^ 970 ≤ ratValue a - ratValue b → fsub a b = .value 0x7FF0000000000000#64) ∧
    (ratValue a - ratValue b ≤ -(2 ^ 1024 - 2 ^ 970) → fsub a b = .value 0xFFF0000000000000#64) ∧
    (2 ^ 1024 - 2 ^ 970 ≤ ratValue a * ratValue b → fmul a b = .value 0x7FF0000000000000#64) ∧
    (ratValue a * ratValue b ≤ -(2 ^ 1024 - 2 ^ 970) → fmul a b = .value 0xFFF0000000000000#64) ∧
    (isZero b = false → 2 ^ 1024 - 2 ^ 970 ≤ ratValue a / ratValue b → fdiv a b = .value 0x7FF0000000000000#64) ∧
    (isZero b = false → ratValue a / ratValue b ≤ -(2 ^ 1024 - 2 ^ 970) → fdiv a b = .value 0xFFF0000000000000#64)) ∧
  (∀ p : NaNPattern, isNaN (nanBits p) = true) ∧ (∀ w : F64, isNaN w = true → ∃ p : NaNPattern, nanBits p = w)

/-- For finite patterns the four comparisons are those of the exact values, so the two zeros are equal; every non-NaN
pattern lies between the two infinities, in the order of the extended reals (the model's choice, PRESUMED from
IEEE-754, log 17); fgt and fge are flt and fle with the operands exchanged; with a NaN operand all four are false.
(R105, 93_implementation_defined.md G1.) -/
def Obligations.OrderedComparisonsCompareValues : Prop :=
  (∀ a b : F64, isFinite a = true → isFinite b = true →
    (flt a b = true ↔ ratValue a < ratValue b) ∧ (fle a b = true ↔ ratValue a ≤ ratValue b)) ∧
  (∀ a b : F64, fgt a b = flt b a ∧ fge a b = fle b a) ∧
  (∀ a : F64, isNaN a = false →
    fle 0xFFF0000000000000#64 a = true ∧ fle a 0x7FF0000000000000#64 = true ∧
    (flt 0xFFF0000000000000#64 a = true ↔ a ≠ 0xFFF0000000000000#64) ∧
    (flt a 0x7FF0000000000000#64 = true ↔ a ≠ 0x7FF0000000000000#64)) ∧
  (∀ a b : F64, isNaN a = true ∨ isNaN b = true →
    flt a b = false ∧ fle a b = false ∧ fgt a b = false ∧ fge a b = false)

/-- EPS is 10^-9 rounded once to binary64. For finite operands with a finite rounded difference d, eq is |d| < EPS on
exact values; ne is always the negation of eq; with a NaN operand eq is false; where the rounded difference is an
infinity eq is false and ne true, as it is where a difference of finite operands overflows (an exact difference of
magnitude 2^1024 - 2^970 or more) and wherever an operand is an infinity, two equal infinities among them (a
difference with one infinite operand, log 17); and the default ordered predicates are the plain comparisons, while
under CMP_ORDERED_EPS the strict two also exclude eq and the other two also accept it. (R105, 92_eei_decisions.md D12,
92_eei_decisions.md D23.) -/
def Obligations.EqualityIsWithinTheTolerance : Prop :=
  RoundedOnce ((1 : ℝ) / 10 ^ 9) eps ∧
  (∀ a b d : F64, isFinite a = true → isFinite b = true → fsub a b = .value d → isFinite d = true →
    (cmpEq a b = true ↔ |ratValue d| < ratValue eps)) ∧
  (∀ a b : F64, cmpNe a b = !cmpEq a b) ∧
  (∀ a b : F64, isNaN a = true ∨ isNaN b = true → cmpEq a b = false) ∧
  (∀ a b d : F64, fsub a b = .value d → isInf d = true → cmpEq a b = false ∧ cmpNe a b = true) ∧
  (∀ a b : F64, isFinite a = true → isFinite b = true → 2 ^ 1024 - 2 ^ 970 ≤ |ratValue a - ratValue b| →
    cmpEq a b = false ∧ cmpNe a b = true) ∧
  (∀ a b : F64, isInf a = true ∨ isInf b = true → cmpEq a b = false ∧ cmpNe a b = true) ∧
  (∀ a b : F64, cmpLt false a b = flt a b ∧ cmpLe false a b = fle a b ∧ cmpGt false a b = fgt a b ∧
    cmpGe false a b = fge a b) ∧
  (∀ a b : F64, cmpLt true a b = (flt a b && !cmpEq a b) ∧ cmpGt true a b = (fgt a b && !cmpEq a b) ∧
    cmpLe true a b = ((flt a b && !cmpEq a b) || cmpEq a b) ∧ cmpGe true a b = ((fgt a b && !cmpEq a b) || cmpEq a b))

/-- With t = A + 1 + delta on unbounded integers: where 0 <= t < IMAGE_LEN, JMP answers the state with pc at t and
nothing else changed; otherwise it takes Error(InvalidOperation) with pc five past the opcode. Its encoding is
OPC(JMP) and the four bytes of delta. (R104.) -/
def Obligations.JmpBranchesAlways : Prop :=
  (∀ (s : State) (d : W32),
    (0 ≤ s.pc.toInt + 1 + d.toInt → s.pc.toInt + 1 + d.toInt < s.image.length →
      exec (.jmp d) s = .next { s with pc := BitVec.ofInt 32 (s.pc.toInt + 1 + d.toInt) }) ∧
    (s.pc.toInt + 1 + d.toInt < 0 ∨ (s.image.length : Int) ≤ s.pc.toInt + 1 + d.toInt →
      exec (.jmp d) s = .next { s with pc := s.pc + 5#32, status := .error .invalidOperation })) ∧
  (∀ (t : OpcTable) (d : W32), encode t (.jmp d) = opcodeByte t .jmp false false :: w32Bytes d)

/-- For each of the six with its predicate: with fewer than two cells it takes StackUnderflow and pops nothing. With
two or more both are popped, and with t = A + 1 + delta: predicate true and t in the image, pc becomes t; predicate
true and t outside, Error(InvalidOperation) with pc at the next instruction; predicate false, pc is at the next
instruction. Under VALIDATE_UNTAKEN a t outside is the error whatever the predicate. Nothing else changes. (R106.) -/
def Obligations.ConditionalJumpsPopTwoAndBranch : Prop :=
  ∀ (s : State) (d : W32) (c : W32 → Instr) (pred : F64 → F64 → Bool),
    (c, pred) ∈ condJumps s.params.cmpOrderedEps →
    (s.os.length < 2 → exec (c d) s = .next { s with pc := s.pc + 5#32, status := .error .stackUnderflow }) ∧
    (∀ (lhs rhs : F64) (rest : List F64), s.os = rhs :: lhs :: rest →
      (0 ≤ s.pc.toInt + 1 + d.toInt → s.pc.toInt + 1 + d.toInt < s.image.length → pred lhs rhs = true →
        exec (c d) s = .next { s with os := rest, pc := BitVec.ofInt 32 (s.pc.toInt + 1 + d.toInt) }) ∧
      (0 ≤ s.pc.toInt + 1 + d.toInt → s.pc.toInt + 1 + d.toInt < s.image.length → pred lhs rhs = false →
        exec (c d) s = .next { s with os := rest, pc := s.pc + 5#32 }) ∧
      (s.pc.toInt + 1 + d.toInt < 0 ∨ (s.image.length : Int) ≤ s.pc.toInt + 1 + d.toInt →
        pred lhs rhs = true ∨ s.params.validateUntaken = true →
        exec (c d) s = .next { s with os := rest, pc := s.pc + 5#32, status := .error .invalidOperation }) ∧
      (s.pc.toInt + 1 + d.toInt < 0 ∨ (s.image.length : Int) ≤ s.pc.toInt + 1 + d.toInt →
        pred lhs rhs = false → s.params.validateUntaken = false →
        exec (c d) s = .next { s with os := rest, pc := s.pc + 5#32 }))

/-- With room on the call stack and t = A + 1 + delta: where 0 <= t < IMAGE_LEN, CALL answers the state with A + 5
pushed on the call stack and pc at t; otherwise it takes Error(InvalidOperation) with the cell pushed and pc at A + 5.
On a full call stack (only under a finite cap) it is the fault stackOverflow. Nothing else changes. Its encoding is
OPC(CALL) and the four bytes of delta. That the push comes before the target is validated is the spec's own decision
D11; what full means and that nothing is pushed then are the model's readings of R17 (log 16, log 21). (R113, R17,
92_eei_decisions.md D11.) -/
def Obligations.CallPushesThenBranches : Prop :=
  (∀ (s : State) (d : W32),
    (s.csFull = false → 0 ≤ s.pc.toInt + 1 + d.toInt → s.pc.toInt + 1 + d.toInt < s.image.length →
      exec (.call d) s =
        .next { s with cs := (s.pc + 5#32) :: s.cs, pc := BitVec.ofInt 32 (s.pc.toInt + 1 + d.toInt) }) ∧
    (s.csFull = false → s.pc.toInt + 1 + d.toInt < 0 ∨ (s.image.length : Int) ≤ s.pc.toInt + 1 + d.toInt →
      exec (.call d) s =
        .next { s with cs := (s.pc + 5#32) :: s.cs, pc := s.pc + 5#32, status := .error .invalidOperation }) ∧
    (s.csFull = true → exec (.call d) s =
      .fault (.stackOverflow { s with pc := s.pc + 5#32, status := .unspecified .stackOverflow }))) ∧
  (∀ (t : OpcTable) (d : W32), encode t (.call d) = opcodeByte t .call false false :: w32Bytes d)

/-- On a non-empty call stack RET answers the state with the top cell gone and pc equal to it, whatever it is, nothing
else changed; on an empty one it takes Error(StackUnderflow) with pc one further. Its encoding is the one byte
OPC(RET). (R114.) -/
def Obligations.RetReturnsToTheSavedAddress : Prop :=
  (∀ (s : State) (n : W32) (rest : List W32), s.cs = n :: rest → exec .ret s = .next { s with cs := rest, pc := n }) ∧
  (∀ s : State, s.cs = [] → exec .ret s = .next { s with pc := s.pc + 1#32, status := .error .stackUnderflow }) ∧
  (∀ t : OpcTable, encode t .ret = [opcodeByte t .ret false false])

/-- If CALL answers a state that is still running, RET from that state answers the state before the CALL with pc five
further and nothing else changed. (R113, R114, R115.) -/
def Obligations.CallThenRetComesBack : Prop :=
  ∀ (s t : State) (d : W32), s.status = .running → exec (.call d) s = .next t → t.status = .running →
    exec .ret t = .next { s with pc := s.pc + 5#32 }

/-- In an image of at most 2^31 - 1 bytes, for every opcode offset A not negative and every target inside the image,
JMP with the 32-bit delta target - A - 1 answers the state with pc at the target, and the signed value of pc is the
target. (R68, R100, R101.) -/
def Obligations.AssembledDeltaReachesItsTarget : Prop :=
  ∀ (s : State) (target : Int), 0 ≤ s.pc.toInt → s.image.length ≤ 2 ^ 31 - 1 → 0 ≤ target →
    target < s.image.length →
    ∃ t, exec (.jmp (deltaTo s.pc.toInt target)) s = .next t ∧ t.pc.toInt = target ∧ t = { s with pc := t.pc }

/-- With a value on the input port and room, IN answers the state with that value taken and pushed and pc one further,
nothing else changed. With none on the port after the host has signalled that none will come it is the fault
inputUnavailable; on a full operand stack (only under a finite cap) it is the fault stackOverflow with the value
taken. That the value is taken before the push looks for room and that an exhausted port is reported before a full
stack are the model's readings of the pseudocode (log 20), that the values before the signal are taken first is its
reading of R121 (log 6), and what full means its reading of R17 (log 16). (R120, R121, R17.) -/
def Obligations.InTakesTheNextValue : Prop :=
  (∀ (s : State) (w : F64) (ws : List F64), s.input = w :: ws → s.osFull = false →
    exec .inp s = .next { s with os := w :: s.os, input := ws, pc := s.pc + 1#32 }) ∧
  (∀ (s : State) (w : F64) (ws : List F64), s.input = w :: ws → s.osFull = true → exec .inp s =
    .fault (.stackOverflow { s with input := ws, pc := s.pc + 1#32, status := .unspecified .stackOverflow })) ∧
  (∀ s : State, s.input = [] → s.inputClosed = true → exec .inp s =
    .fault (.inputUnavailable { s with pc := s.pc + 1#32, status := .unspecified .inputUnavailable }))

/-- With the input port empty and not closed, IN leaves the state exactly as it was, pc at its opcode byte (that this
wait is a step to the same state is the model's choice, log 7); once the host supplies values, with room, IN takes the
first of them and pushes it. (R121, R120, R6.) -/
def Obligations.BlockedInWaitsAndResumes : Prop :=
  ∀ s : State, s.input = [] → s.inputClosed = false →
    exec .inp s = .next s ∧
    ∀ (w : F64) (ws : List F64), s.osFull = false →
      exec .inp (s.supplyInput (w :: ws)) = .next { s with os := w :: s.os, input := ws, pc := s.pc + 1#32 }

/-- On a non-empty operand stack OUT answers the state with the top cell gone, its 64 bits appended to the output log
and pc one further, nothing else changed; on an empty one it takes Error(StackUnderflow) with pc one further and the
log as before. Its encoding is the one byte OPC(OUT). That OUT completes rests on the host always accepting the value
(R123, log 23). (R122, R123.) -/
def Obligations.OutSendsTheTop : Prop :=
  (∀ (s : State) (w : F64) (rest : List F64), s.os = w :: rest →
    exec .out s = .next { s with os := rest, output := s.output ++ [w], pc := s.pc + 1#32 }) ∧
  (∀ s : State, s.os = [] → exec .out s = .next { s with pc := s.pc + 1#32, status := .error .stackUnderflow }) ∧
  (∀ t : OpcTable, encode t .out = [opcodeByte t .out false false])

/-- HLT always answers the state with status Halted and pc one further, both stacks, registers, RAM and ports as they
were; its encoding is the one byte OPC(HLT); the host reads exit code 0. (R126, R77, R137.) -/
def Obligations.HltHaltsAndChangesNothingElse : Prop :=
  (∀ s : State, exec .hlt s = .next { s with status := .halted, pc := s.pc + 1#32 }) ∧
  (∀ t : OpcTable, encode t .hlt = [opcodeByte t .hlt false false]) ∧ Status.exitCode .halted = some 0

/-- If an instruction, or a step, answers a next state, its output log is the old one, extended by at most one value
and only by OUT, and its pending input is the old one, less at most its first value and only by IN; the host's
end-of-input signal is unchanged. For a step, the instruction is the one that a running machine decodes at pc. (R45,
R121, R123, R24.) -/
def Obligations.PortsAreInProgramOrder : Prop :=
  (∀ (i : Instr) (s t : State), exec i s = .next t →
    (t.output = s.output ∨ (i = .out ∧ ∃ w, t.output = s.output ++ [w])) ∧
    (t.input = s.input ∨ (i = .inp ∧ ∃ w, s.input = w :: t.input)) ∧ t.inputClosed = s.inputClosed) ∧
  (∀ s t : State, step s = .next t →
    (t.output = s.output ∨ (s.status = .running ∧ s.decodeAtPc = .instr .out ∧ ∃ w, t.output = s.output ++ [w])) ∧
    (t.input = s.input ∨ (s.status = .running ∧ s.decodeAtPc = .instr .inp ∧ ∃ w, s.input = w :: t.input)) ∧
    t.inputClosed = s.inputClosed)

/-- With an empty operand stack OUT, the four POP forms, SQRT and DUP, with fewer than two cells ADD, SUB, MUL, DIV
and the six conditional jumps, and with an empty call stack RET, take Error(StackUnderflow) with pc past the
instruction and every other piece of state, both stacks among it, as it was. (R133.) -/
def Obligations.UnderflowIsCheckedBeforeAnyPop : Prop :=
  (∀ (s : State) (i : Instr) (r : Reg) (v : F64), s.os.length < 1 →
    i ∈ [.out, .pop, .popR r, .popAtV v, .popAtR r, .sqrt, .dup] →
    exec i s = .next { s with pc := s.pc + BitVec.ofNat 32 i.length, status := .error .stackUnderflow }) ∧
  (∀ (s : State) (i : Instr) (d : W32), s.os.length < 2 →
    i ∈ [.add, .sub, .mul, .div, .jmpe d, .jmpne d, .jmpl d, .jmple d, .jmpg d, .jmpge d] →
    exec i s = .next { s with pc := s.pc + BitVec.ofNat 32 i.length, status := .error .stackUnderflow }) ∧
  (∀ s : State, s.cs.length < 1 →
    exec .ret s = .next { s with pc := s.pc + 1#32, status := .error .stackUnderflow })

/-- When a running machine's step answers a next state, its status is Error(InvalidRegister) exactly where the bytes
at pc are a register form with a register byte of 4 or more; it is never Error(InvalidLabel) or Error(InvalidFile).
(R132, R135, R140.) -/
def Obligations.InvalidRegisterHasOneCause : Prop :=
  ∀ s t : State, s.status = .running → step s = .next t →
    (t.status = .error .invalidRegister ↔ s.decodeAtPc = .bad .invalidRegister) ∧
    t.status ≠ .error .invalidLabel ∧ t.status ≠ .error .invalidFile

/-- When a running machine's step answers a next state, that state is Halted exactly where the instruction at pc is
HLT; its status is never Unspecified: such a stop is a fault that carries the stopped state. (R77, R126, R136.) -/
def Obligations.OnlyHltEndsARunSuccessfully : Prop :=
  (∀ s t : State, s.status = .running → step s = .next t →
    (t.status = .halted ↔ s.decodeAtPc = .instr .hlt) ∧ ∀ r, t.status ≠ .unspecified r) ∧
  (∀ (s : State) (f : Fault), step s = .fault f → ∃ (r : StopReason) (u : State), f = r.fault u ∧ u.status = .unspecified r)

/-- No instruction and no step is ever refused. With unbounded stacks, an instruction's execution is a fault only
where it is a RAM form whose address is 1017..1023, or IN on a closed and empty port. (R59, R75, R136.) -/
def Obligations.NoInstructionIsRefused : Prop :=
  (∀ (i : Instr) (s : State) (r : Refusal), exec i s ≠ .refused r) ∧ (∀ (s : State) (r : Refusal), step s ≠ .refused r) ∧
  (∀ (i : Instr) (s : State) (f : Fault), s.params.ostackCap = none → s.params.cstackCap = none → exec i s = .fault f →
    (∃ v, (i = .pushAtV v ∨ i = .popAtV v) ∧ ramAddr v = .overrun) ∨
    (∃ r, (i = .pushAtR r ∨ i = .popAtR r) ∧ ramAddr (s.readReg r) = .overrun) ∨
    (i = .inp ∧ s.input = [] ∧ s.inputClosed = true))

/-- Success has code 0; the six error kinds, in the order of the source's sentence, have codes 1 to 6 (the spec's
default, log 14); a running machine and an Unspecified stop have none. (R137, 92_eei_decisions.md D17.) -/
def Obligations.ExitCodesAreDistinctAndNonZero : Prop :=
  Status.exitCode .halted = some 0 ∧
  [ErrorKind.invalidOperation, .invalidRegister, .stackUnderflow, .invalidLabel, .invalidFile, .invalidRamAddress].map
    ErrorKind.exitCode = [1, 2, 3, 4, 5, 6] ∧
  Status.exitCode .running = none ∧ (∀ r, Status.exitCode (.unspecified r) = none) ∧
  (∀ k, Status.exitCode (.error k) = some k.exitCode)

/-- From every state that meets the invariant (RAM canonical and inside its 1,024 bytes; the image at most 2^31 - 1
bytes; 0 <= pc <= IMAGE_LEN; every return offset in 1..IMAGE_LEN; both stacks within their caps), a step that answers
a next state gives a state that meets it. (R15, R19, R17, R114, R102, R4.) -/
def Obligations.EveryStepKeepsTheInvariant : Prop :=
  ∀ s t : State, s.Inv → step s = .next t → t.Inv

/-- For every parameter set, every image of at most 2^31 - 1 bytes and every input stream, the state after Load meets
the invariant. State.reset is such a state: the default parameters, an empty image and no input, which are the model's
choice (log 5, log 6). (R26, R15, R4, 92_eei_decisions.md D4.) -/
def Obligations.LoadMeetsTheInvariant : Prop :=
  (∀ (p : Params) (image : List Byte) (input : List F64), image.length ≤ 2 ^ 31 - 1 →
    (State.load p image input).Inv) ∧ State.reset = State.load Params.default [] [] ∧ State.reset.Inv

/-- If a step answers a next state, its image and its parameters are those before the step. (R20, R48, R30.) -/
def Obligations.ImageAndParametersNeverChange : Prop :=
  ∀ s t : State, step s = .next t → t.image = s.image ∧ t.params = s.params

/-- If an instruction other than POP R answers a next state, all four registers are as before; POP R leaves every
register but its own. If an instruction other than PUSH R, PUSH [R], POP [R] and POP R answers t, then from the same
state with any other register contents it answers t with those contents; PUSH R, PUSH [R] and POP [R] depend on no
register but their own, and POP R's popped value on none. (R13.) -/
def Obligations.RegistersAreWrittenOnlyByPopR : Prop :=
  (∀ (i : Instr) (s t : State), exec i s = .next t → (∀ r, i ≠ .popR r) → t.regs = s.regs) ∧
  (∀ (s t : State) (r q : Reg), exec (.popR r) s = .next t → q ≠ r → t.readReg q = s.readReg q) ∧
  (∀ (i : Instr) (s t : State) (x : Regs), exec i s = .next t →
    (∀ r, i ≠ .popR r ∧ i ≠ .pushR r ∧ i ≠ .pushAtR r ∧ i ≠ .popAtR r) →
    exec i { s with regs := x } = .next { t with regs := x }) ∧
  (∀ (s t : State) (r : Reg) (x : Regs) (i : Instr), i ∈ [.pushR r, .pushAtR r, .popAtR r] → x.read r = s.readReg r →
    exec i s = .next t → exec i { s with regs := x } = .next { t with regs := x }) ∧
  (∀ (s t : State) (r : Reg) (x : Regs), exec (.popR r) s = .next t →
    ∃ t', exec (.popR r) { s with regs := x } = .next t' ∧ t'.os = t.os ∧ t'.status = t.status ∧
      (s.os ≠ [] → t'.readReg r = t.readReg r))

/-- If an instruction other than POP [v] and POP [R] answers a next state, every RAM byte reads as before. If POP [v]
or POP [R] answers one, every byte outside the eight at the address that ram_addr of its operand gives reads as
before; where ram_addr gives none, every byte does. (R19, R30, R48, R32.) -/
def Obligations.RamIsWrittenOnlyByTheStoreForms : Prop :=
  ∀ (i : Instr) (s t : State), exec i s = .next t →
    ((∀ v, i ≠ .popAtV v) → (∀ r, i ≠ .popAtR r) → ∀ b, t.ram.read b = s.ram.read b) ∧
    (∀ x : F64, (i = .popAtV x ∨ ∃ r, i = .popAtR r ∧ x = s.readReg r) →
      (∀ a, ramAddr x = .ok a → ∀ b, b < a ∨ a + 8 ≤ b → t.ram.read b = s.ram.read b) ∧
      ((∀ a, ramAddr x ≠ .ok a) → ∀ b, t.ram.read b = s.ram.read b))

/-- If an instruction answers a next state, the call stack is as before, or the instruction is CALL and the offset
after it is pushed, or it is RET and the top cell is gone. (R18, R115.) -/
def Obligations.CallStackIsChangedOnlyByCallAndRet : Prop :=
  ∀ (i : Instr) (s t : State), exec i s = .next t →
    t.cs = s.cs ∨ ((∃ d, i = .call d) ∧ t.cs = (s.pc + 5#32) :: s.cs) ∨ (i = .ret ∧ ∃ n, s.cs = n :: t.cs)

/-- If an instruction that is not one of the eight jump forms or RET answers a next state, pc is its length further
on, whether it completed or took an error, but for a blocked IN, which leaves the state as it was (R121; that this
wait is a step to the same state is the model's choice, log 7). (R74, R121, R131, R133, R134.) -/
def Obligations.SequentialInstructionsAdvanceByTheirLength : Prop :=
  ∀ (i : Instr) (s t : State), exec i s = .next t → i.format ≠ .j → i ≠ .ret →
    t.pc = s.pc + BitVec.ofNat 32 i.length ∨ (i = .inp ∧ s.input = [] ∧ s.inputClosed = false ∧ t = s)

/-- For every infinity a: with a finite b, a + b, b + a and a - b are a, and b - a is a with its sign inverted; a + a
and a - (-a) are a; a times any b that is neither a zero nor NaN, in either order, and a divided by a finite b, a zero
among them, are the infinity whose sign is the exclusive-or of the operand signs; a finite b divided by a is the zero
of that sign. The spec calls these operations IEEE-754's (R90) and its corner table does not list them: they are the
model's choice, PRESUMED from IEEE-754 (log 17). (R90, 93_implementation_defined.md G1.) -/
def Obligations.InfiniteOperandsFollowIeee : Prop :=
  ∀ a b : F64, isInf a = true →
    (isFinite b = true → fadd a b = .value a ∧ fadd b a = .value a ∧ fsub a b = .value a ∧ fsub b a = .value (fneg a)) ∧
    fadd a a = .value a ∧ fsub a (fneg a) = .value a ∧
    (isNaN b = false → isZero b = false →
      fmul a b = .value (if f64Sign a = f64Sign b then 0x7FF0000000000000#64 else 0xFFF0000000000000#64) ∧
      fmul b a = .value (if f64Sign a = f64Sign b then 0x7FF0000000000000#64 else 0xFFF0000000000000#64)) ∧
    (isFinite b = true →
      fdiv a b = .value (if f64Sign a = f64Sign b then 0x7FF0000000000000#64 else 0xFFF0000000000000#64) ∧
      fdiv b a = .value (if f64Sign a = f64Sign b then 0x0000000000000000#64 else 0x8000000000000000#64))
end

