-- ==== Sys2Proof/Laws/Bytes.lean ====
section
/-! SUPPORT. Little-endian reading and writing are inverse. -/

namespace Sys2Proof.Machine

@[simp] theorem leNat_nil : leNat [] = 0 := rfl

@[simp] theorem leNat_cons (b : Byte) (bs : List Byte) : leNat (b :: bs) = b.toNat + 256 * leNat bs := rfl

@[simp] theorem leBytes_zero (w : Nat) : leBytes 0 w = [] := rfl

theorem leBytes_succ (n w : Nat) : leBytes (n + 1) w = BitVec.ofNat 8 w :: leBytes n (w / 256) := rfl

@[simp] theorem leBytes_length (n w : Nat) : (leBytes n w).length = n := by
  induction n generalizing w with
  | zero => rfl
  | succ n ih => simp [leBytes_succ, ih]

theorem leNat_leBytes (n w : Nat) : leNat (leBytes n w) = w % 256 ^ n := by
  induction n generalizing w with
  | zero => simp [Nat.mod_one]
  | succ n ih =>
    rw [leBytes_succ, leNat_cons, ih, Nat.pow_succ', Nat.mod_mul]
    simp

theorem leNat_lt (bs : List Byte) : leNat bs < 256 ^ bs.length := by
  induction bs with
  | nil => simp
  | cons b bs ih =>
    have := b.isLt
    simp only [leNat_cons, List.length_cons, Nat.pow_succ]
    omega

theorem leBytes_leNat (bs : List Byte) : leBytes bs.length (leNat bs) = bs := by
  induction bs with
  | nil => rfl
  | cons b bs ih =>
    have hb : BitVec.ofNat 8 (b.toNat + 256 * leNat bs) = b := by
      apply BitVec.eq_of_toNat_eq
      have := b.isLt
      simp only [BitVec.toNat_ofNat]
      omega
    have hd : (b.toNat + 256 * leNat bs) / 256 = leNat bs := by have := b.isLt; omega
    rw [List.length_cons, leNat_cons, leBytes_succ, hb, hd, ih]

/-- A pattern is the pattern of its bytes. -/
@[simp] theorem f64OfBytes_f64Bytes (v : F64) : f64OfBytes (f64Bytes v) = v := by
  apply BitVec.eq_of_toNat_eq
  have := v.isLt
  simp only [f64OfBytes, f64Bytes, leNat_leBytes, BitVec.toNat_ofNat]
  omega

/-- A 32-bit pattern is the pattern of its bytes. -/
@[simp] theorem w32OfBytes_w32Bytes (w : W32) : w32OfBytes (w32Bytes w) = w := by
  apply BitVec.eq_of_toNat_eq
  have := w.isLt
  simp only [w32OfBytes, w32Bytes, leNat_leBytes, BitVec.toNat_ofNat]
  omega

/-- Eight bytes are the bytes of their pattern. -/
theorem f64Bytes_f64OfBytes (bs : List Byte) (h : bs.length = 8) : f64Bytes (f64OfBytes bs) = bs := by
  have hlt := leNat_lt bs
  have hb := leBytes_leNat bs
  rw [h] at hlt hb
  rw [f64Bytes, f64OfBytes, BitVec.toNat_ofNat, Nat.mod_eq_of_lt (by omega), hb]

/-- Four bytes are the bytes of their pattern. -/
theorem w32Bytes_w32OfBytes (bs : List Byte) (h : bs.length = 4) : w32Bytes (w32OfBytes bs) = bs := by
  have hlt := leNat_lt bs
  have hb := leBytes_leNat bs
  rw [h] at hlt hb
  rw [w32Bytes, w32OfBytes, BitVec.toNat_ofNat, Nat.mod_eq_of_lt (by omega), hb]

@[simp] theorem f64Bytes_length (v : F64) : (f64Bytes v).length = 8 := leBytes_length 8 v.toNat

@[simp] theorem w32Bytes_length (w : W32) : (w32Bytes w).length = 4 := leBytes_length 4 w.toNat

end Sys2Proof.Machine
end

