-- ==== Sys2Proof/Laws/Memory.lean ====
section
/-! SUPPORT. The RAM: reads after writes, and that every operation keeps the canonical form. -/

namespace Sys2Proof.Machine

@[simp] theorem Memory.read_nil (a : Nat) : Memory.read [] a = unlistedByte := rfl

theorem Memory.read_cons (k : Nat) (c : Byte) (m : Memory) (a : Nat) :
    Memory.read ((k, c) :: m) a = if k = a then c else Memory.read m a := rfl

/-- Nothing is listed below the bound. -/
theorem Memory.read_of_wfFrom {lo : Nat} {m : Memory} (h : Memory.wfFrom lo m = true) {a : Nat} (ha : a < lo) :
    m.read a = unlistedByte := by
  induction m generalizing lo with
  | nil => rfl
  | cons e m ih =>
    obtain ⟨k, c⟩ := e
    simp only [Memory.wfFrom, Bool.and_eq_true, decide_eq_true_eq] at h
    rw [Memory.read_cons, if_neg (by omega)]
    exact ih h.2 (by omega)

theorem Memory.wfFrom_mono {lo lo' : Nat} {m : Memory} (hl : lo' ≤ lo) (h : Memory.wfFrom lo m = true) :
    Memory.wfFrom lo' m = true := by
  cases m with
  | nil => rfl
  | cons e m =>
    obtain ⟨k, c⟩ := e
    simp only [Memory.wfFrom, Bool.and_eq_true, decide_eq_true_eq] at h ⊢
    exact ⟨⟨by omega, h.1.2⟩, h.2⟩

/-- A read of a canonical RAM after a write of one byte. -/
theorem Memory.read_write_of_wfFrom {lo : Nat} {m : Memory} (h : Memory.wfFrom lo m = true) (a b : Nat) (v : Byte) :
    (m.write a v).read b = if b = a then v else m.read b := by
  induction m generalizing lo with
  | nil =>
    by_cases hv : v = unlistedByte
    · simp [Memory.write, hv]
    · by_cases hb : b = a
      · simp [Memory.write, hv, Memory.read_cons, hb]
      · simp [Memory.write, hv, Memory.read_cons, hb, Ne.symm hb]
  | cons e m ih =>
    obtain ⟨k, c⟩ := e
    simp only [Memory.wfFrom, Bool.and_eq_true, decide_eq_true_eq] at h
    obtain ⟨⟨hlo, hc⟩, hm⟩ := h
    rw [Memory.write]
    by_cases h1 : a < k
    · rw [if_pos h1]
      by_cases hv : v = unlistedByte
      · rw [if_pos hv]
        by_cases hb : b = a
        · rw [if_pos hb, hb, Memory.read_cons, if_neg (by omega), Memory.read_of_wfFrom hm (by omega), hv]
        · rw [if_neg hb]
      · rw [if_neg hv, Memory.read_cons]
        by_cases hb : b = a
        · rw [if_pos hb.symm, if_pos hb]
        · rw [if_neg (Ne.symm hb), if_neg hb]
    · rw [if_neg h1]
      by_cases h2 : a = k
      · subst h2
        rw [if_pos rfl]
        by_cases hv : v = unlistedByte
        · rw [if_pos hv]
          by_cases hb : b = a
          · rw [if_pos hb, hb, Memory.read_of_wfFrom hm (by omega), hv]
          · rw [if_neg hb, Memory.read_cons, if_neg (Ne.symm hb)]
        · rw [if_neg hv, Memory.read_cons]
          by_cases hb : b = a
          · rw [if_pos hb.symm, if_pos hb]
          · rw [if_neg (Ne.symm hb), if_neg hb, Memory.read_cons, if_neg (Ne.symm hb)]
      · rw [if_neg h2, Memory.read_cons, Memory.read_cons, ih hm]
        by_cases hk : k = b
        · rw [if_pos hk, if_pos hk, if_neg (by omega)]
        · rw [if_neg hk, if_neg hk]

/-- A write of one byte keeps the canonical form. -/
theorem Memory.wfFrom_write {lo : Nat} {m : Memory} (h : Memory.wfFrom lo m = true) {a : Nat} (ha : lo ≤ a) (v : Byte) :
    Memory.wfFrom lo (m.write a v) = true := by
  induction m generalizing lo with
  | nil =>
    by_cases hv : v = unlistedByte
    · simp [Memory.write, hv, Memory.wfFrom]
    · simp [Memory.write, hv, Memory.wfFrom, ha]
  | cons e m ih =>
    obtain ⟨k, c⟩ := e
    have h0 := h
    simp only [Memory.wfFrom, Bool.and_eq_true, decide_eq_true_eq] at h
    obtain ⟨⟨hlo, hc⟩, hm⟩ := h
    rw [Memory.write]
    by_cases h1 : a < k
    · rw [if_pos h1]
      by_cases hv : v = unlistedByte
      · rwa [if_pos hv]
      · rw [if_neg hv]
        simp only [Memory.wfFrom, Bool.and_eq_true, decide_eq_true_eq]
        exact ⟨⟨ha, by simpa using hv⟩, ⟨by omega, hc⟩, hm⟩
    · rw [if_neg h1]
      by_cases h2 : a = k
      · rw [if_pos h2]
        by_cases hv : v = unlistedByte
        · rw [if_pos hv]
          exact Memory.wfFrom_mono (by omega) hm
        · rw [if_neg hv]
          simp only [Memory.wfFrom, Bool.and_eq_true, decide_eq_true_eq]
          exact ⟨⟨hlo, by simpa using hv⟩, hm⟩
      · rw [if_neg h2]
        simp only [Memory.wfFrom, Bool.and_eq_true, decide_eq_true_eq]
        exact ⟨⟨hlo, hc⟩, ih hm (by omega)⟩

theorem Memory.wf_nil : Memory.wf [] = true := rfl

theorem Memory.wf_write {m : Memory} (h : m.wf = true) (a : Nat) (v : Byte) : (m.write a v).wf = true :=
  Memory.wfFrom_write h (Nat.zero_le a) v

theorem Memory.read_write {m : Memory} (h : m.wf = true) (a b : Nat) (v : Byte) :
    (m.write a v).read b = if b = a then v else m.read b :=
  Memory.read_write_of_wfFrom h a b v

theorem Memory.wf_writeBytes {m : Memory} (h : m.wf = true) (a : Nat) (bs : List Byte) :
    (m.writeBytes a bs).wf = true := by
  induction bs generalizing m a with
  | nil => exact h
  | cons b bs ih => exact ih (Memory.wf_write h a b) (a + 1)

/-- A store keeps the canonical form. -/
theorem Memory.wf_store {m : Memory} (h : m.wf = true) (a : Nat) (w : F64) : (m.store a w).wf = true :=
  Memory.wf_writeBytes h a (f64Bytes w)

/-- A read of a canonical RAM after a write of a run of bytes. -/
theorem Memory.read_writeBytes {m : Memory} (h : m.wf = true) (a b : Nat) (bs : List Byte) :
    (m.writeBytes a bs).read b = if b < a then m.read b else (bs[b - a]?).getD (m.read b) := by
  induction bs generalizing m a with
  | nil => simp [Memory.writeBytes]
  | cons c bs ih =>
    rw [Memory.writeBytes, ih (Memory.wf_write h a c), Memory.read_write h]
    by_cases h1 : b < a
    · rw [if_pos (by omega), if_neg (by omega), if_pos h1]
    · by_cases h2 : b = a
      · rw [if_pos (by omega), if_pos h2, if_neg h1, h2, Nat.sub_self]
        simp
      · have h3 : b - a = (b - (a + 1)) + 1 := by omega
        rw [if_neg (by omega), if_neg h2, if_neg h1, h3, List.getElem?_cons_succ]

theorem Memory.inRam_cons (k : Nat) (c : Byte) (m : Memory) :
    Memory.inRam ((k, c) :: m) = true ↔ k < ramSize ∧ m.inRam = true := by
  rw [Memory.inRam, List.all_cons, Bool.and_eq_true, decide_eq_true_eq]
  rfl

theorem Memory.inRam_write {m : Memory} (h : m.inRam = true) {a : Nat} (ha : a < ramSize) (v : Byte) :
    (m.write a v).inRam = true := by
  induction m with
  | nil =>
    rw [Memory.write]
    split
    · rfl
    · exact (Memory.inRam_cons a v []).2 ⟨ha, rfl⟩
  | cons e m ih =>
    obtain ⟨k, c⟩ := e
    have h' := (Memory.inRam_cons k c m).1 h
    rw [Memory.write]
    split
    · split
      · exact h
      · exact (Memory.inRam_cons a v _).2 ⟨ha, h⟩
    · split
      · split
        · exact h'.2
        · exact (Memory.inRam_cons k v m).2 h'
      · exact (Memory.inRam_cons k c _).2 ⟨h'.1, ih h'.2⟩

/-- A store inside the RAM lists no address outside it. -/
theorem Memory.inRam_writeBytes {m : Memory} (h : m.inRam = true) (a : Nat) (bs : List Byte)
    (ha : a + bs.length ≤ ramSize) : (m.writeBytes a bs).inRam = true := by
  induction bs generalizing m a with
  | nil => exact h
  | cons b bs ih =>
    simp only [List.length_cons] at ha
    exact ih (Memory.inRam_write h (by omega) b) (a + 1) (by omega)

theorem Memory.inRam_store {m : Memory} (h : m.inRam = true) (a : Nat) (ha : a ≤ 1016) (w : F64) :
    (m.store a w).inRam = true :=
  Memory.inRam_writeBytes h a (f64Bytes w) (by simp [ramSize]; omega)

@[simp] theorem Memory.readBytes_zero (m : Memory) (a : Nat) : m.readBytes 0 a = [] := rfl

theorem Memory.readBytes_succ (m : Memory) (n a : Nat) : m.readBytes (n + 1) a = m.read a :: m.readBytes n (a + 1) := rfl

/-- Equal reads over a run give equal bytes. -/
theorem Memory.readBytes_congr {m m' : Memory} (n a : Nat) (h : ∀ b, a ≤ b → b < a + n → m.read b = m'.read b) :
    m.readBytes n a = m'.readBytes n a := by
  induction n generalizing a with
  | zero => rfl
  | succ n ih =>
    rw [Memory.readBytes_succ, Memory.readBytes_succ, h a (by omega) (by omega),
      ih (a + 1) fun b h1 h2 => h b (by omega) (by omega)]

end Sys2Proof.Machine
end

