-- ==== Sys2Proof/Laws/State.lean ====
section
/-! SUPPORT. One lemma per field per update of State, and per field per composed update, so that no later proof unfolds a
record update. -/

namespace Sys2Proof.Machine

variable (s : State)

@[simp] theorem State.setOs_os (v : List F64) : (s.setOs v).os = v := rfl
@[simp] theorem State.setOs_cs (v : List F64) : (s.setOs v).cs = s.cs := rfl
@[simp] theorem State.setOs_regs (v : List F64) : (s.setOs v).regs = s.regs := rfl
@[simp] theorem State.setOs_ram (v : List F64) : (s.setOs v).ram = s.ram := rfl
@[simp] theorem State.setOs_pc (v : List F64) : (s.setOs v).pc = s.pc := rfl
@[simp] theorem State.setOs_status (v : List F64) : (s.setOs v).status = s.status := rfl
@[simp] theorem State.setOs_input (v : List F64) : (s.setOs v).input = s.input := rfl
@[simp] theorem State.setOs_inputClosed (v : List F64) : (s.setOs v).inputClosed = s.inputClosed := rfl
@[simp] theorem State.setOs_output (v : List F64) : (s.setOs v).output = s.output := rfl
@[simp] theorem State.setOs_image (v : List F64) : (s.setOs v).image = s.image := rfl
@[simp] theorem State.setOs_params (v : List F64) : (s.setOs v).params = s.params := rfl
@[simp] theorem State.setOs_nanDraws (v : List F64) : (s.setOs v).nanDraws = s.nanDraws := rfl

@[simp] theorem State.setCs_os (v : List W32) : (s.setCs v).os = s.os := rfl
@[simp] theorem State.setCs_cs (v : List W32) : (s.setCs v).cs = v := rfl
@[simp] theorem State.setCs_regs (v : List W32) : (s.setCs v).regs = s.regs := rfl
@[simp] theorem State.setCs_ram (v : List W32) : (s.setCs v).ram = s.ram := rfl
@[simp] theorem State.setCs_pc (v : List W32) : (s.setCs v).pc = s.pc := rfl
@[simp] theorem State.setCs_status (v : List W32) : (s.setCs v).status = s.status := rfl
@[simp] theorem State.setCs_input (v : List W32) : (s.setCs v).input = s.input := rfl
@[simp] theorem State.setCs_inputClosed (v : List W32) : (s.setCs v).inputClosed = s.inputClosed := rfl
@[simp] theorem State.setCs_output (v : List W32) : (s.setCs v).output = s.output := rfl
@[simp] theorem State.setCs_image (v : List W32) : (s.setCs v).image = s.image := rfl
@[simp] theorem State.setCs_params (v : List W32) : (s.setCs v).params = s.params := rfl
@[simp] theorem State.setCs_nanDraws (v : List W32) : (s.setCs v).nanDraws = s.nanDraws := rfl

@[simp] theorem State.setRegs_os (v : Regs) : (s.setRegs v).os = s.os := rfl
@[simp] theorem State.setRegs_cs (v : Regs) : (s.setRegs v).cs = s.cs := rfl
@[simp] theorem State.setRegs_regs (v : Regs) : (s.setRegs v).regs = v := rfl
@[simp] theorem State.setRegs_ram (v : Regs) : (s.setRegs v).ram = s.ram := rfl
@[simp] theorem State.setRegs_pc (v : Regs) : (s.setRegs v).pc = s.pc := rfl
@[simp] theorem State.setRegs_status (v : Regs) : (s.setRegs v).status = s.status := rfl
@[simp] theorem State.setRegs_input (v : Regs) : (s.setRegs v).input = s.input := rfl
@[simp] theorem State.setRegs_inputClosed (v : Regs) : (s.setRegs v).inputClosed = s.inputClosed := rfl
@[simp] theorem State.setRegs_output (v : Regs) : (s.setRegs v).output = s.output := rfl
@[simp] theorem State.setRegs_image (v : Regs) : (s.setRegs v).image = s.image := rfl
@[simp] theorem State.setRegs_params (v : Regs) : (s.setRegs v).params = s.params := rfl
@[simp] theorem State.setRegs_nanDraws (v : Regs) : (s.setRegs v).nanDraws = s.nanDraws := rfl

@[simp] theorem State.setRam_os (v : Memory) : (s.setRam v).os = s.os := rfl
@[simp] theorem State.setRam_cs (v : Memory) : (s.setRam v).cs = s.cs := rfl
@[simp] theorem State.setRam_regs (v : Memory) : (s.setRam v).regs = s.regs := rfl
@[simp] theorem State.setRam_ram (v : Memory) : (s.setRam v).ram = v := rfl
@[simp] theorem State.setRam_pc (v : Memory) : (s.setRam v).pc = s.pc := rfl
@[simp] theorem State.setRam_status (v : Memory) : (s.setRam v).status = s.status := rfl
@[simp] theorem State.setRam_input (v : Memory) : (s.setRam v).input = s.input := rfl
@[simp] theorem State.setRam_inputClosed (v : Memory) : (s.setRam v).inputClosed = s.inputClosed := rfl
@[simp] theorem State.setRam_output (v : Memory) : (s.setRam v).output = s.output := rfl
@[simp] theorem State.setRam_image (v : Memory) : (s.setRam v).image = s.image := rfl
@[simp] theorem State.setRam_params (v : Memory) : (s.setRam v).params = s.params := rfl
@[simp] theorem State.setRam_nanDraws (v : Memory) : (s.setRam v).nanDraws = s.nanDraws := rfl

@[simp] theorem State.setPc_os (v : W32) : (s.setPc v).os = s.os := rfl
@[simp] theorem State.setPc_cs (v : W32) : (s.setPc v).cs = s.cs := rfl
@[simp] theorem State.setPc_regs (v : W32) : (s.setPc v).regs = s.regs := rfl
@[simp] theorem State.setPc_ram (v : W32) : (s.setPc v).ram = s.ram := rfl
@[simp] theorem State.setPc_pc (v : W32) : (s.setPc v).pc = v := rfl
@[simp] theorem State.setPc_status (v : W32) : (s.setPc v).status = s.status := rfl
@[simp] theorem State.setPc_input (v : W32) : (s.setPc v).input = s.input := rfl
@[simp] theorem State.setPc_inputClosed (v : W32) : (s.setPc v).inputClosed = s.inputClosed := rfl
@[simp] theorem State.setPc_output (v : W32) : (s.setPc v).output = s.output := rfl
@[simp] theorem State.setPc_image (v : W32) : (s.setPc v).image = s.image := rfl
@[simp] theorem State.setPc_params (v : W32) : (s.setPc v).params = s.params := rfl
@[simp] theorem State.setPc_nanDraws (v : W32) : (s.setPc v).nanDraws = s.nanDraws := rfl

@[simp] theorem State.setStatus_os (v : Status) : (s.setStatus v).os = s.os := rfl
@[simp] theorem State.setStatus_cs (v : Status) : (s.setStatus v).cs = s.cs := rfl
@[simp] theorem State.setStatus_regs (v : Status) : (s.setStatus v).regs = s.regs := rfl
@[simp] theorem State.setStatus_ram (v : Status) : (s.setStatus v).ram = s.ram := rfl
@[simp] theorem State.setStatus_pc (v : Status) : (s.setStatus v).pc = s.pc := rfl
@[simp] theorem State.setStatus_status (v : Status) : (s.setStatus v).status = v := rfl
@[simp] theorem State.setStatus_input (v : Status) : (s.setStatus v).input = s.input := rfl
@[simp] theorem State.setStatus_inputClosed (v : Status) : (s.setStatus v).inputClosed = s.inputClosed := rfl
@[simp] theorem State.setStatus_output (v : Status) : (s.setStatus v).output = s.output := rfl
@[simp] theorem State.setStatus_image (v : Status) : (s.setStatus v).image = s.image := rfl
@[simp] theorem State.setStatus_params (v : Status) : (s.setStatus v).params = s.params := rfl
@[simp] theorem State.setStatus_nanDraws (v : Status) : (s.setStatus v).nanDraws = s.nanDraws := rfl

@[simp] theorem State.setInput_os (v : List F64) : (s.setInput v).os = s.os := rfl
@[simp] theorem State.setInput_cs (v : List F64) : (s.setInput v).cs = s.cs := rfl
@[simp] theorem State.setInput_regs (v : List F64) : (s.setInput v).regs = s.regs := rfl
@[simp] theorem State.setInput_ram (v : List F64) : (s.setInput v).ram = s.ram := rfl
@[simp] theorem State.setInput_pc (v : List F64) : (s.setInput v).pc = s.pc := rfl
@[simp] theorem State.setInput_status (v : List F64) : (s.setInput v).status = s.status := rfl
@[simp] theorem State.setInput_input (v : List F64) : (s.setInput v).input = v := rfl
@[simp] theorem State.setInput_inputClosed (v : List F64) : (s.setInput v).inputClosed = s.inputClosed := rfl
@[simp] theorem State.setInput_output (v : List F64) : (s.setInput v).output = s.output := rfl
@[simp] theorem State.setInput_image (v : List F64) : (s.setInput v).image = s.image := rfl
@[simp] theorem State.setInput_params (v : List F64) : (s.setInput v).params = s.params := rfl
@[simp] theorem State.setInput_nanDraws (v : List F64) : (s.setInput v).nanDraws = s.nanDraws := rfl

@[simp] theorem State.setOutput_os (v : List F64) : (s.setOutput v).os = s.os := rfl
@[simp] theorem State.setOutput_cs (v : List F64) : (s.setOutput v).cs = s.cs := rfl
@[simp] theorem State.setOutput_regs (v : List F64) : (s.setOutput v).regs = s.regs := rfl
@[simp] theorem State.setOutput_ram (v : List F64) : (s.setOutput v).ram = s.ram := rfl
@[simp] theorem State.setOutput_pc (v : List F64) : (s.setOutput v).pc = s.pc := rfl
@[simp] theorem State.setOutput_status (v : List F64) : (s.setOutput v).status = s.status := rfl
@[simp] theorem State.setOutput_input (v : List F64) : (s.setOutput v).input = s.input := rfl
@[simp] theorem State.setOutput_inputClosed (v : List F64) : (s.setOutput v).inputClosed = s.inputClosed := rfl
@[simp] theorem State.setOutput_output (v : List F64) : (s.setOutput v).output = v := rfl
@[simp] theorem State.setOutput_image (v : List F64) : (s.setOutput v).image = s.image := rfl
@[simp] theorem State.setOutput_params (v : List F64) : (s.setOutput v).params = s.params := rfl
@[simp] theorem State.setOutput_nanDraws (v : List F64) : (s.setOutput v).nanDraws = s.nanDraws := rfl

@[simp] theorem State.setNanDraws_os (v : Nat) : (s.setNanDraws v).os = s.os := rfl
@[simp] theorem State.setNanDraws_cs (v : Nat) : (s.setNanDraws v).cs = s.cs := rfl
@[simp] theorem State.setNanDraws_regs (v : Nat) : (s.setNanDraws v).regs = s.regs := rfl
@[simp] theorem State.setNanDraws_ram (v : Nat) : (s.setNanDraws v).ram = s.ram := rfl
@[simp] theorem State.setNanDraws_pc (v : Nat) : (s.setNanDraws v).pc = s.pc := rfl
@[simp] theorem State.setNanDraws_status (v : Nat) : (s.setNanDraws v).status = s.status := rfl
@[simp] theorem State.setNanDraws_input (v : Nat) : (s.setNanDraws v).input = s.input := rfl
@[simp] theorem State.setNanDraws_inputClosed (v : Nat) : (s.setNanDraws v).inputClosed = s.inputClosed := rfl
@[simp] theorem State.setNanDraws_output (v : Nat) : (s.setNanDraws v).output = s.output := rfl
@[simp] theorem State.setNanDraws_image (v : Nat) : (s.setNanDraws v).image = s.image := rfl
@[simp] theorem State.setNanDraws_params (v : Nat) : (s.setNanDraws v).params = s.params := rfl
@[simp] theorem State.setNanDraws_nanDraws (v : Nat) : (s.setNanDraws v).nanDraws = v := rfl

@[simp] theorem State.past_os (f : Format) : (s.past f).os = s.os := rfl
@[simp] theorem State.past_cs (f : Format) : (s.past f).cs = s.cs := rfl
@[simp] theorem State.past_regs (f : Format) : (s.past f).regs = s.regs := rfl
@[simp] theorem State.past_ram (f : Format) : (s.past f).ram = s.ram := rfl
@[simp] theorem State.past_pc (f : Format) : (s.past f).pc = s.pc + BitVec.ofNat 32 f.length := rfl
@[simp] theorem State.past_status (f : Format) : (s.past f).status = s.status := rfl
@[simp] theorem State.past_input (f : Format) : (s.past f).input = s.input := rfl
@[simp] theorem State.past_inputClosed (f : Format) : (s.past f).inputClosed = s.inputClosed := rfl
@[simp] theorem State.past_output (f : Format) : (s.past f).output = s.output := rfl
@[simp] theorem State.past_image (f : Format) : (s.past f).image = s.image := rfl
@[simp] theorem State.past_params (f : Format) : (s.past f).params = s.params := rfl
@[simp] theorem State.past_nanDraws (f : Format) : (s.past f).nanDraws = s.nanDraws := rfl

@[simp] theorem State.advance_os (n : Nat) : (s.advance n).os = s.os := rfl
@[simp] theorem State.advance_cs (n : Nat) : (s.advance n).cs = s.cs := rfl
@[simp] theorem State.advance_regs (n : Nat) : (s.advance n).regs = s.regs := rfl
@[simp] theorem State.advance_ram (n : Nat) : (s.advance n).ram = s.ram := rfl
@[simp] theorem State.advance_pc (n : Nat) : (s.advance n).pc = s.pc + BitVec.ofNat 32 n := rfl
@[simp] theorem State.advance_status (n : Nat) : (s.advance n).status = s.status := rfl
@[simp] theorem State.advance_input (n : Nat) : (s.advance n).input = s.input := rfl
@[simp] theorem State.advance_inputClosed (n : Nat) : (s.advance n).inputClosed = s.inputClosed := rfl
@[simp] theorem State.advance_output (n : Nat) : (s.advance n).output = s.output := rfl
@[simp] theorem State.advance_image (n : Nat) : (s.advance n).image = s.image := rfl
@[simp] theorem State.advance_params (n : Nat) : (s.advance n).params = s.params := rfl
@[simp] theorem State.advance_nanDraws (n : Nat) : (s.advance n).nanDraws = s.nanDraws := rfl

@[simp] theorem State.writeReg_os (r : Reg) (w : F64) : (s.writeReg r w).os = s.os := rfl
@[simp] theorem State.writeReg_cs (r : Reg) (w : F64) : (s.writeReg r w).cs = s.cs := rfl
@[simp] theorem State.writeReg_regs (r : Reg) (w : F64) : (s.writeReg r w).regs = s.regs.write r w := rfl
@[simp] theorem State.writeReg_ram (r : Reg) (w : F64) : (s.writeReg r w).ram = s.ram := rfl
@[simp] theorem State.writeReg_pc (r : Reg) (w : F64) : (s.writeReg r w).pc = s.pc := rfl
@[simp] theorem State.writeReg_status (r : Reg) (w : F64) : (s.writeReg r w).status = s.status := rfl
@[simp] theorem State.writeReg_input (r : Reg) (w : F64) : (s.writeReg r w).input = s.input := rfl
@[simp] theorem State.writeReg_inputClosed (r : Reg) (w : F64) : (s.writeReg r w).inputClosed = s.inputClosed := rfl
@[simp] theorem State.writeReg_output (r : Reg) (w : F64) : (s.writeReg r w).output = s.output := rfl
@[simp] theorem State.writeReg_image (r : Reg) (w : F64) : (s.writeReg r w).image = s.image := rfl
@[simp] theorem State.writeReg_params (r : Reg) (w : F64) : (s.writeReg r w).params = s.params := rfl
@[simp] theorem State.writeReg_nanDraws (r : Reg) (w : F64) : (s.writeReg r w).nanDraws = s.nanDraws := rfl

@[simp] theorem State.emit_os (w : F64) : (s.emit w).os = s.os := rfl
@[simp] theorem State.emit_cs (w : F64) : (s.emit w).cs = s.cs := rfl
@[simp] theorem State.emit_regs (w : F64) : (s.emit w).regs = s.regs := rfl
@[simp] theorem State.emit_ram (w : F64) : (s.emit w).ram = s.ram := rfl
@[simp] theorem State.emit_pc (w : F64) : (s.emit w).pc = s.pc := rfl
@[simp] theorem State.emit_status (w : F64) : (s.emit w).status = s.status := rfl
@[simp] theorem State.emit_input (w : F64) : (s.emit w).input = s.input := rfl
@[simp] theorem State.emit_inputClosed (w : F64) : (s.emit w).inputClosed = s.inputClosed := rfl
@[simp] theorem State.emit_output (w : F64) : (s.emit w).output = s.output ++ [w] := rfl
@[simp] theorem State.emit_image (w : F64) : (s.emit w).image = s.image := rfl
@[simp] theorem State.emit_params (w : F64) : (s.emit w).params = s.params := rfl
@[simp] theorem State.emit_nanDraws (w : F64) : (s.emit w).nanDraws = s.nanDraws := rfl

@[simp] theorem State.supplyInput_os (ws : List F64) : (s.supplyInput ws).os = s.os := rfl
@[simp] theorem State.supplyInput_cs (ws : List F64) : (s.supplyInput ws).cs = s.cs := rfl
@[simp] theorem State.supplyInput_regs (ws : List F64) : (s.supplyInput ws).regs = s.regs := rfl
@[simp] theorem State.supplyInput_ram (ws : List F64) : (s.supplyInput ws).ram = s.ram := rfl
@[simp] theorem State.supplyInput_pc (ws : List F64) : (s.supplyInput ws).pc = s.pc := rfl
@[simp] theorem State.supplyInput_status (ws : List F64) : (s.supplyInput ws).status = s.status := rfl
@[simp] theorem State.supplyInput_input (ws : List F64) : (s.supplyInput ws).input = s.input ++ ws := rfl
@[simp] theorem State.supplyInput_inputClosed (ws : List F64) : (s.supplyInput ws).inputClosed = s.inputClosed := rfl
@[simp] theorem State.supplyInput_output (ws : List F64) : (s.supplyInput ws).output = s.output := rfl
@[simp] theorem State.supplyInput_image (ws : List F64) : (s.supplyInput ws).image = s.image := rfl
@[simp] theorem State.supplyInput_params (ws : List F64) : (s.supplyInput ws).params = s.params := rfl
@[simp] theorem State.supplyInput_nanDraws (ws : List F64) : (s.supplyInput ws).nanDraws = s.nanDraws := rfl

@[simp] theorem State.closeInput_os : s.closeInput.os = s.os := rfl
@[simp] theorem State.closeInput_cs : s.closeInput.cs = s.cs := rfl
@[simp] theorem State.closeInput_regs : s.closeInput.regs = s.regs := rfl
@[simp] theorem State.closeInput_ram : s.closeInput.ram = s.ram := rfl
@[simp] theorem State.closeInput_pc : s.closeInput.pc = s.pc := rfl
@[simp] theorem State.closeInput_status : s.closeInput.status = s.status := rfl
@[simp] theorem State.closeInput_input : s.closeInput.input = s.input := rfl
@[simp] theorem State.closeInput_inputClosed : s.closeInput.inputClosed = true := rfl
@[simp] theorem State.closeInput_output : s.closeInput.output = s.output := rfl
@[simp] theorem State.closeInput_image : s.closeInput.image = s.image := rfl
@[simp] theorem State.closeInput_params : s.closeInput.params = s.params := rfl
@[simp] theorem State.closeInput_nanDraws : s.closeInput.nanDraws = s.nanDraws := rfl

@[simp] theorem State.placeAtPc_os (bs : List Byte) : (s.placeAtPc bs).os = s.os := rfl
@[simp] theorem State.placeAtPc_cs (bs : List Byte) : (s.placeAtPc bs).cs = s.cs := rfl
@[simp] theorem State.placeAtPc_regs (bs : List Byte) : (s.placeAtPc bs).regs = s.regs := rfl
@[simp] theorem State.placeAtPc_ram (bs : List Byte) : (s.placeAtPc bs).ram = s.ram := rfl
@[simp] theorem State.placeAtPc_pc (bs : List Byte) : (s.placeAtPc bs).pc = s.pc := rfl
@[simp] theorem State.placeAtPc_status (bs : List Byte) : (s.placeAtPc bs).status = .running := rfl
@[simp] theorem State.placeAtPc_input (bs : List Byte) : (s.placeAtPc bs).input = s.input := rfl
@[simp] theorem State.placeAtPc_inputClosed (bs : List Byte) : (s.placeAtPc bs).inputClosed = s.inputClosed := rfl
@[simp] theorem State.placeAtPc_output (bs : List Byte) : (s.placeAtPc bs).output = s.output := rfl
@[simp] theorem State.placeAtPc_image (bs : List Byte) : (s.placeAtPc bs).image = overwriteImage s.image s.pc.toInt.toNat bs := rfl
@[simp] theorem State.placeAtPc_params (bs : List Byte) : (s.placeAtPc bs).params = s.params := rfl
@[simp] theorem State.placeAtPc_nanDraws (bs : List Byte) : (s.placeAtPc bs).nanDraws = s.nanDraws := rfl

end Sys2Proof.Machine
end

