-- ==== Sys2Proof/Laws/Ops.lean ====
section
/-! SUPPORT. For each shared operation, once, everything it can do when it answers a next state, and that none of them
refuses. Proofs about meanings cite these and do not unfold the operations. -/

namespace Sys2Proof.Machine

theorem takeError_next {k : ErrorKind} {s t : State} : takeError k s = .next t ↔ t = s.setStatus (.error k) := by
  simp [takeError, eq_comm]

theorem stopUnspecified_ne_next {r : StopReason} {s t : State} : stopUnspecified r s ≠ .next t := by
  simp [stopUnspecified]

theorem halt_next {s t : State} : halt s = .next t ↔ t = s.setStatus .halted := by
  simp [halt, eq_comm]

theorem pushOs_next {v : F64} {s t : State} :
    pushOs v s = .next t ↔ s.osFull = false ∧ t = s.setOs (v :: s.os) := by
  unfold pushOs stopUnspecified
  cases s.osFull <;> simp [eq_comm]

theorem popOs_next {s t : State} {k : F64 → State → Out} :
    popOs s k = .next t ↔
      (s.os = [] ∧ t = s.setStatus (.error .stackUnderflow)) ∨
      ∃ w rest, s.os = w :: rest ∧ k w (s.setOs rest) = .next t := by
  unfold popOs
  cases h : s.os with
  | nil => simp [takeError_next]
  | cons w rest => simp

theorem pop2Os_next {s t : State} {k : F64 → F64 → State → Out} :
    pop2Os s k = .next t ↔
      (s.os.length < 2 ∧ t = s.setStatus (.error .stackUnderflow)) ∨
      ∃ rhs lhs rest, s.os = rhs :: lhs :: rest ∧ k lhs rhs (s.setOs rest) = .next t := by
  unfold pop2Os
  match h : s.os with
  | [] => simp [takeError_next]
  | [_] => simp [takeError_next]
  | rhs :: lhs :: rest => simp

/-- An arithmetic result pushes one cell, and counts a draw where it is NaN. -/
theorem pushResult_next {op : ArithOp} {xs : List F64} {r : FResult} {s t : State} :
    pushResult op xs r s = .next t ↔ s.osFull = false ∧
      ((∃ v, r = .value v ∧ t = s.setOs (v :: s.os)) ∨
       (r = .nan ∧ t = (s.setNanDraws (s.nanDraws + 1)).setOs (nanBits (Config.nanDraw s.nanDraws op xs) :: s.os))) := by
  cases r with
  | value v => simp [pushResult, pushOs_next]
  | nan => simp [pushResult, pushOs_next, State.osFull]

theorem pushCs_next {n : W32} {s t : State} {k : State → Out} :
    pushCs n s k = .next t ↔ s.csFull = false ∧ k (s.setCs (n :: s.cs)) = .next t := by
  unfold pushCs stopUnspecified
  cases s.csFull <;> simp

theorem popCs_next {s t : State} {k : W32 → State → Out} :
    popCs s k = .next t ↔
      (s.cs = [] ∧ t = s.setStatus (.error .stackUnderflow)) ∨
      ∃ n rest, s.cs = n :: rest ∧ k n (s.setCs rest) = .next t := by
  unfold popCs
  cases h : s.cs with
  | nil => simp [takeError_next]
  | cons w rest => simp

/-- An accepted RAM address lies in `0..1016`. -/
theorem ramAddr_ok_le {v : F64} {a : Nat} (h : ramAddr v = .ok a) : a ≤ 1016 := by
  unfold ramAddr at h
  split at h
  · dsimp only at h
    split at h
    · cases h
    · split at h
      · cases h
      · cases h
        omega
  · cases h

theorem withRamAddr_next {v : F64} {s t : State} {k : Nat → Out} :
    withRamAddr v s k = .next t ↔
      (ramAddr v = .invalid ∧ t = s.setStatus (.error .invalidRamAddress)) ∨
      ∃ a, ramAddr v = .ok a ∧ k a = .next t := by
  unfold withRamAddr
  cases h : ramAddr v with
  | ok a => simp
  | invalid => simp [takeError_next]
  | overrun => simp [stopUnspecified_ne_next]

theorem pushFromRam_next {v : F64} {s t : State} :
    pushFromRam v s = .next t ↔
      (ramAddr v = .invalid ∧ t = s.setStatus (.error .invalidRamAddress)) ∨
      ∃ a, ramAddr v = .ok a ∧ s.osFull = false ∧ t = s.setOs (s.ram.load a :: s.os) := by
  simp [pushFromRam, withRamAddr_next, pushOs_next]

theorem popToRam_next {v : F64} {s t : State} :
    popToRam v s = .next t ↔
      (s.os = [] ∧ t = s.setStatus (.error .stackUnderflow)) ∨
      ∃ w rest, s.os = w :: rest ∧
        ((ramAddr v = .invalid ∧ t = (s.setOs rest).setStatus (.error .invalidRamAddress)) ∨
         ∃ a, ramAddr v = .ok a ∧ t = (s.setOs rest).setRam (s.ram.store a w)) := by
  simp only [popToRam, popOs_next, withRamAddr_next, Host.Outcome.next.injEq, State.setOs_ram]
  simp only [eq_comm]

theorem jumpTo_next {g : Int} {s t : State} :
    jumpTo g s = .next t ↔
      (s.legalTarget g = true ∧ t = s.setPc (BitVec.ofInt 32 g)) ∨
      (s.legalTarget g = false ∧ t = s.setStatus (.error .invalidOperation)) := by
  unfold jumpTo
  cases s.legalTarget g
  · simp [takeError_next]
  · simp [eq_comm]

theorem condJump_next {pred : F64 → F64 → Bool} {d : W32} {s t : State} :
    condJump pred d s = .next t ↔
      (s.os.length < 2 ∧ t = (s.past .j).setStatus (.error .stackUnderflow)) ∨
      ∃ rhs lhs rest, s.os = rhs :: lhs :: rest ∧
        ((s.params.validateUntaken && !s.legalTarget (jumpTarget s.pc d)) = true ∧
            t = ((s.past .j).setOs rest).setStatus (.error .invalidOperation) ∨
         (s.params.validateUntaken && !s.legalTarget (jumpTarget s.pc d)) = false ∧
          (pred lhs rhs = true ∧ jumpTo (jumpTarget s.pc d) ((s.past .j).setOs rest) = .next t ∨
           pred lhs rhs = false ∧ t = (s.past .j).setOs rest)) := by
  simp only [condJump, pop2Os_next, State.past_os]
  constructor
  · rintro (h | ⟨rhs, lhs, rest, h, hk⟩)
    · exact .inl h
    · refine .inr ⟨rhs, lhs, rest, h, ?_⟩
      split at hk
      · next hv => exact .inl ⟨hv, takeError_next.1 hk⟩
      · next hv =>
        refine .inr ⟨by simpa using hv, ?_⟩
        split at hk
        · next hp => exact .inl ⟨hp, hk⟩
        · next hp => exact .inr ⟨by simpa using hp, by simpa [eq_comm] using hk⟩
  · rintro (h | ⟨rhs, lhs, rest, h, hk⟩)
    · exact .inl h
    · refine .inr ⟨rhs, lhs, rest, h, ?_⟩
      rcases hk with ⟨hv, rfl⟩ | ⟨hv, ⟨hp, hk⟩ | ⟨hp, rfl⟩⟩
      · rw [if_pos hv]
        rfl
      · rw [if_neg (by simp [hv]), if_pos hp, hk]
      · rw [if_neg (by simp [hv]), if_neg (by simp [hp])]

theorem binaryArith_next {op : ArithOp} {f : F64 → F64 → FResult} {s t : State} :
    binaryArith op f s = .next t ↔
      (s.os.length < 2 ∧ t = (s.past .n).setStatus (.error .stackUnderflow)) ∨
      ∃ rhs lhs rest, s.os = rhs :: lhs :: rest ∧
        pushResult op [lhs, rhs] (f lhs rhs) ((s.past .n).setOs rest) = .next t := by
  simp only [binaryArith, pop2Os_next, State.past_os]

/-- A step that finds no instruction ends in an error, or in a fault. -/
theorem decodeStop_next {e : DecodeError} {s t : State} :
    decodeStop e s = .next t ↔
      (e = .invalidOpcode ∧ t = (s.advance 1).setStatus (.error .invalidOperation)) ∨
      (e = .invalidRegister ∧ t = (s.past .r).setStatus (.error .invalidRegister)) ∨
      (e = .nonFiniteImmediate ∧ t = (s.past .i).setStatus (.error .invalidOperation)) := by
  cases e <;> simp [decodeStop, takeError_next, stopUnspecified_ne_next]

/-- Everything a step can do when it answers a next state. -/
theorem step_next {s t : State} :
    step s = .next t ↔
      (s.status ≠ .running ∧ t = s) ∨
      (s.status = .running ∧
        ((∃ i, s.decodeAtPc = .instr i ∧ exec i s = .next t) ∨
         ∃ e, s.decodeAtPc = .bad e ∧ decodeStop e s = .next t)) := by
  unfold step
  cases hs : s.status with
  | running => cases hd : s.decodeAtPc <;> simp
  | halted => simp [eq_comm]
  | error k => simp [eq_comm]
  | unspecified r => simp [eq_comm]

/-! ## Registers -/

@[simp] theorem Regs.read_write_same (x : Regs) (r : Reg) (v : F64) : (x.write r v).read r = v := by
  cases r <;> rfl

theorem Regs.read_write_of_ne (x : Regs) {r q : Reg} (v : F64) (h : q ≠ r) : (x.write r v).read q = x.read q := by
  cases r <;> cases q <;> first | rfl | exact absurd rfl h

end Sys2Proof.Machine
end

