-- ==== Sys2Proof/Laws/PerInstr.lean ====
section
/-! SUPPORT. Statements for all instructions, made per instruction. -/

namespace Sys2Proof.Laws

/-- An instruction's encoding has the length of its format, under every opcode table (spec/30_encoding.md R50). -/
def EncodedLength.Statement (i : Instr) : Prop := ∀ t : OpcTable, (encode t i).length = i.length

theorem EncodedLength.inp : EncodedLength.Statement .inp := fun _ => rfl
theorem EncodedLength.out : EncodedLength.Statement .out := fun _ => rfl
theorem EncodedLength.pop : EncodedLength.Statement .pop := fun _ => rfl
theorem EncodedLength.popR (r : Reg) : EncodedLength.Statement (.popR r) := fun _ => rfl
theorem EncodedLength.popAtV (v : F64) : EncodedLength.Statement (.popAtV v) := fun _ => congrArg (· + 1) (Machine.f64Bytes_length v)
theorem EncodedLength.popAtR (r : Reg) : EncodedLength.Statement (.popAtR r) := fun _ => rfl
theorem EncodedLength.pushV (v : F64) : EncodedLength.Statement (.pushV v) := fun _ => congrArg (· + 1) (Machine.f64Bytes_length v)
theorem EncodedLength.pushR (r : Reg) : EncodedLength.Statement (.pushR r) := fun _ => rfl
theorem EncodedLength.pushAtV (v : F64) : EncodedLength.Statement (.pushAtV v) := fun _ => congrArg (· + 1) (Machine.f64Bytes_length v)
theorem EncodedLength.pushAtR (r : Reg) : EncodedLength.Statement (.pushAtR r) := fun _ => rfl
theorem EncodedLength.add : EncodedLength.Statement .add := fun _ => rfl
theorem EncodedLength.sub : EncodedLength.Statement .sub := fun _ => rfl
theorem EncodedLength.mul : EncodedLength.Statement .mul := fun _ => rfl
theorem EncodedLength.div : EncodedLength.Statement .div := fun _ => rfl
theorem EncodedLength.sqrt : EncodedLength.Statement .sqrt := fun _ => rfl
theorem EncodedLength.dup : EncodedLength.Statement .dup := fun _ => rfl
theorem EncodedLength.jmp (delta : W32) : EncodedLength.Statement (.jmp delta) := fun _ => congrArg (· + 1) (Machine.w32Bytes_length delta)
theorem EncodedLength.jmpe (delta : W32) : EncodedLength.Statement (.jmpe delta) := fun _ => congrArg (· + 1) (Machine.w32Bytes_length delta)
theorem EncodedLength.jmpne (delta : W32) : EncodedLength.Statement (.jmpne delta) := fun _ => congrArg (· + 1) (Machine.w32Bytes_length delta)
theorem EncodedLength.jmpl (delta : W32) : EncodedLength.Statement (.jmpl delta) := fun _ => congrArg (· + 1) (Machine.w32Bytes_length delta)
theorem EncodedLength.jmple (delta : W32) : EncodedLength.Statement (.jmple delta) := fun _ => congrArg (· + 1) (Machine.w32Bytes_length delta)
theorem EncodedLength.jmpg (delta : W32) : EncodedLength.Statement (.jmpg delta) := fun _ => congrArg (· + 1) (Machine.w32Bytes_length delta)
theorem EncodedLength.jmpge (delta : W32) : EncodedLength.Statement (.jmpge delta) := fun _ => congrArg (· + 1) (Machine.w32Bytes_length delta)
theorem EncodedLength.call (delta : W32) : EncodedLength.Statement (.call delta) := fun _ => congrArg (· + 1) (Machine.w32Bytes_length delta)
theorem EncodedLength.ret : EncodedLength.Statement .ret := fun _ => rfl
theorem EncodedLength.hlt : EncodedLength.Statement .hlt := fun _ => rfl

end Sys2Proof.Laws
end

