-- ==== Sys2Proof/Tests/Slice0.lean ====
section
/-! SUPPORT. The model's own tests: the checks of WellFormed, one word per constructor written out from the spec's
encoding, at most two small step tests per instruction from spec/95_test_vectors.md, and for every statement with
hypotheses a concrete instance that meets them. -/

/- One theorem at a time: the evaluations of many at once would each hold a thread, more than a memory limit allows. -/
set_option Elab.async false

namespace Sys2Proof.Tests

open Sys2Proof Sys2Proof.Machine

/-- The next state of an outcome, if it is one. -/
def next? : Out → Option State
  | .next s => some s
  | .fault _ => none
  | .refused _ => none

/-- The fault of an outcome, if it is one. -/
def fault? : Out → Option Fault
  | .next _ => none
  | .fault f => some f
  | .refused _ => none

/-- A machine right after Load of an image. -/
def loaded (image : List Byte) : State := State.load Params.default image []

/-- A machine with `IMAGE_LEN = 20` and `pc` at an offset, as in spec/95_test_vectors.md V-jump. -/
def at20 (pc : W32) (os : List F64) : State := { loaded (List.replicate 20 0) with pc := pc, os := os }

/-- A machine whose two stacks have capacity 0. -/
def capped : State :=
  { State.reset with params := { Params.default with ostackCap := some 0, cstackCap := some 0 } }

/-- A legal opcode table other than the default: `IN` at `0x3F`. -/
def otherTable : OpcTable := { OpcTable.default with inp := 0x3F }

/-! ## WellFormed refuses every ill-formed term -/

theorem test_wellFormed_refuses_pushV_inf : (Instr.pushV 0x7FF0000000000000).wellFormed = false := by decide
theorem test_wellFormed_refuses_pushAtV_negInf : (Instr.pushAtV 0xFFF0000000000000).wellFormed = false := by decide
theorem test_wellFormed_refuses_popAtV_nan : (Instr.popAtV 0x7FF0000000000001).wellFormed = false := by decide
theorem test_wellFormed_accepts_largest : (Instr.pushV 0x7FEFFFFFFFFFFFFF).wellFormed = true := by decide

/-! ## One word per constructor (spec/30_encoding.md R59; spec/95_test_vectors.md) -/

theorem test_decode_inp : decode OpcTable.default [0x00] = .instr .inp := by decide
theorem test_decode_out : decode OpcTable.default [0x01] = .instr .out := by decide
theorem test_decode_pop : decode OpcTable.default [0x02] = .instr .pop := by decide
theorem test_decode_popR : decode OpcTable.default [0x82, 0x01] = .instr (.popR .bx) := by decide
theorem test_decode_popAtV :
    decode OpcTable.default [0x42, 0, 0, 0, 0, 0, 0, 0x30, 0x40] = .instr (.popAtV 0x4030000000000000) := by decide
theorem test_decode_popAtR : decode OpcTable.default [0xC2, 0x02] = .instr (.popAtR .cx) := by decide
theorem test_decode_pushV :
    decode OpcTable.default [0x03, 0x1F, 0x85, 0xEB, 0x51, 0xB8, 0x1E, 0x09, 0x40] =
      .instr (.pushV 0x40091EB851EB851F) := by decide
theorem test_decode_pushR : decode OpcTable.default [0x83, 0x00] = .instr (.pushR .ax) := by decide
theorem test_decode_pushAtV :
    decode OpcTable.default [0x43, 0, 0, 0, 0, 0, 0, 0x10, 0x40] = .instr (.pushAtV 0x4010000000000000) := by decide
theorem test_decode_pushAtR : decode OpcTable.default [0xC3, 0x03] = .instr (.pushAtR .dx) := by decide
theorem test_decode_add : decode OpcTable.default [0x04] = .instr .add := by decide
theorem test_decode_sub : decode OpcTable.default [0x05] = .instr .sub := by decide
theorem test_decode_mul : decode OpcTable.default [0x06] = .instr .mul := by decide
theorem test_decode_div : decode OpcTable.default [0x07] = .instr .div := by decide
theorem test_decode_sqrt : decode OpcTable.default [0x08] = .instr .sqrt := by decide
theorem test_decode_dup : decode OpcTable.default [0x09] = .instr .dup := by decide
theorem test_decode_jmp :
    decode OpcTable.default [0x0A, 0xFD, 0xFF, 0xFF, 0xFF] = .instr (.jmp 0xFFFFFFFD) := by decide
theorem test_decode_jmpe : decode OpcTable.default [0x0B, 4, 0, 0, 0] = .instr (.jmpe 4) := by decide
theorem test_decode_jmpne : decode OpcTable.default [0x0C, 0, 1, 0, 0] = .instr (.jmpne 0x100) := by decide
theorem test_decode_jmpl : decode OpcTable.default [0x0D, 0, 0, 1, 0] = .instr (.jmpl 0x10000) := by decide
theorem test_decode_jmple : decode OpcTable.default [0x0E, 0, 0, 0, 0x80] = .instr (.jmple 0x80000000) := by decide
theorem test_decode_jmpg :
    decode OpcTable.default [0x0F, 0xE3, 0xFF, 0xFF, 0xFF] = .instr (.jmpg 0xFFFFFFE3) := by decide
theorem test_decode_jmpge : decode OpcTable.default [0x10, 0xFF, 0xFF, 0xFF, 0x7F] = .instr (.jmpge 0x7FFFFFFF) := by decide
theorem test_decode_call : decode OpcTable.default [0x11, 6, 0, 0, 0] = .instr (.call 6) := by decide
theorem test_decode_ret : decode OpcTable.default [0x12] = .instr .ret := by decide
theorem test_decode_hlt : decode OpcTable.default [0x13] = .instr .hlt := by decide
theorem test_decode_illegal : [0x14, 0x3F, 0x84, 0x4A, 0xD3, 0xFF].map (fun b => decode OpcTable.default [b]) =
    List.replicate 6 (.bad .invalidOpcode) := by decide
theorem test_encode_pushAtR : encode OpcTable.default (.pushAtR .dx) = [0xC3, 0x03] := by decide
theorem test_encode_jmp : encode OpcTable.default (.jmp 0xFFFFFFFD) = [0x0A, 0xFD, 0xFF, 0xFF, 0xFF] := by decide
theorem test_tableWord_pushR : decodeTableWord 8 0x83 = some (.pushR .ax) := by decide

/-! ## Steps that find no instruction (spec/95_test_vectors.md V-enc, S5, S6) -/

theorem test_step_bad_register :
    step (loaded [0x83, 0x04]) = .next { loaded [0x83, 0x04] with pc := 2, status := .error .invalidRegister } := by rfl
theorem test_step_infinite_immediate :
    (next? (step (loaded [0x03, 0, 0, 0, 0, 0, 0, 0xF0, 0x7F]))).map (fun t => (t.pc, t.status)) =
      some (9, .error .invalidOperation) := by decide
theorem test_step_illegal : step (loaded [0xFF]) = .next { loaded [0xFF] with pc := 1, status := .error .invalidOperation } := by rfl
theorem test_step_truncated : step (loaded [0x03, 0, 0]) =
    .fault (.fetchBeyondImage { loaded [0x03, 0, 0] with pc := 1, status := .unspecified .fetchBeyondImage }) := by rfl

/-! ## Moves (spec/95_test_vectors.md V-move, V-ram) -/

theorem test_pushV : (next? (step (loaded [0x03, 0, 0, 0, 0, 0, 0, 0, 0x40]))).map (fun t => (t.os, t.pc)) =
    some ([0x4000000000000000], 9) := by decide
theorem test_pushR_inf :
    (next? (exec (.pushR .bx) { State.reset with regs := ⟨0, 0x7FF0000000000000, 0, 0⟩ })).map (·.os) =
      some [0x7FF0000000000000] := by decide
theorem test_pushAtV_overlap :
    (next? (exec (.pushAtV 0x4034000000000000) { State.reset with ram := [(22, 0x1C), (23, 0x40)] })).map (·.os) =
      some [0x401C0000] := by decide +kernel
theorem test_pushAtV_overrun : (fault? (exec (.pushAtV 0x408FC80000000000) State.reset)) =
    some (.ramOverrun { State.reset with pc := 9, status := .unspecified .ramOverrun }) := by decide +kernel
theorem test_pushAtR_infinite_address :
    (next? (exec (.pushAtR .ax) { State.reset with regs := ⟨0x7FF0000000000000, 0, 0, 0⟩ })).map (·.status) =
      some (.error .invalidRamAddress) := by decide +kernel
theorem test_pushAtR_reset : (next? (exec (.pushAtR .ax) State.reset)).map (·.os) = some [0] := by decide +kernel
theorem test_pop : (next? (exec .pop { State.reset with os := [7, 1] })).map (·.os) = some [1] := by decide
theorem test_popR : (next? (exec (.popR .cx) { State.reset with os := [7, 1] })).map (fun t => (t.os, t.regs)) =
    some ([1], ⟨0, 0, 7, 0⟩) := by decide
theorem test_popAtV :
    (next? (exec (.popAtV 0x4030000000000000) { State.reset with os := [0x401C000000000000] })).map (·.ram) =
      some [(22, 0x1C), (23, 0x40)] := by decide +kernel
theorem test_popAtV_pops_before_the_address_check :
    (next? (exec (.popAtV 0x409F400000000000) { State.reset with os := [1] })).map (fun t => (t.os, t.status)) =
      some ([], .error .invalidRamAddress) := by decide +kernel
theorem test_popAtR :
    (next? (exec (.popAtR .bx)
      { State.reset with os := [0x4004000000000000], ram := [(11, 0x40)], regs := ⟨0, 0x4020000000000000, 0, 0⟩ })).map (·.ram) =
      some [(14, 0x04), (15, 0x40)] := by decide +kernel
theorem test_dup : (next? (exec .dup { State.reset with os := [0x7FF8000000000001] })).map (·.os) =
    some [0x7FF8000000000001, 0x7FF8000000000001] := by decide
theorem test_ramAddr_edges :
    [0x0000000000000000, 0x8000000000000000, 0x408FC7FFFFFFFFFF, 0x408FC80000000000, 0x4090000000000000,
      0xBFE0000000000000, 0x7E37E43C8800759C].map ramAddr =
      [.ok 0, .ok 0, .ok 1016, .overrun, .invalid, .invalid, .invalid] := by decide +kernel

/-! ## Arithmetic (spec/95_test_vectors.md V-arith; `os` top first) -/

theorem test_add_rounds :
    (next? (exec .add { State.reset with os := [0x3FC999999999999A, 0x3FB999999999999A] })).map (·.os) =
      some [0x3FD3333333333334] := by decide +kernel
theorem test_add_overflows : fadd 0x7FEFFFFFFFFFFFFF 0x7FEFFFFFFFFFFFFF = .value 0x7FF0000000000000 := by decide +kernel
theorem test_sub_order :
    (next? (exec .sub { State.reset with os := [0x4010000000000000, 0x4024000000000000] })).map (·.os) =
      some [0x4018000000000000] := by decide +kernel
theorem test_mul_negative_zero :
    (next? (exec .mul { State.reset with os := [0, 0xC000000000000000] })).map (·.os) =
      some [0x8000000000000000] := by decide +kernel
theorem test_mul_nan : (next? (exec .mul { State.reset with os := [0x7FF0000000000000, 0] })).map (·.nanDraws) = some 1 := by
  decide +kernel
theorem test_div_order :
    (next? (exec .div { State.reset with os := [0x4010000000000000, 0x3FF0000000000000] })).map (·.os) =
      some [0x3FD0000000000000] := by decide +kernel
theorem test_div_by_negative_zero : fdiv 0x3FF0000000000000 0x8000000000000000 = .value 0xFFF0000000000000 := by
  decide +kernel
theorem test_sqrt_two :
    (next? (exec .sqrt { State.reset with os := [0x4000000000000000] })).map (·.os) = some [0x3FF6A09E667F3BCD] := by
  decide +kernel
theorem test_sqrt_negative : fsqrt 0xBFF0000000000000 = .nan := by decide +kernel

/-! ## Control transfer (spec/95_test_vectors.md V-cmp, V-jump; `os` top first) -/

theorem test_jmp_backward : (next? (exec (.jmp 0xFFFFFFF5) (at20 10 []))).map (·.pc) = some 0 := by decide
theorem test_jmp_no_wrap : (next? (exec (.jmp 0x7FFFFFFF) (at20 10 []))).map (fun t => (t.pc, t.status)) =
    some (15, .error .invalidOperation) := by decide
theorem test_jmpe_untaken_bad_target :
    (next? (exec (.jmpe 9) (at20 10 [0x4000000000000000, 0x3FF0000000000000]))).map (fun t => (t.pc, t.os, t.status)) =
      some (15, [], .running) := by decide +kernel
theorem test_jmpe_taken_bad_target :
    (next? (exec (.jmpe 9) (at20 10 [0x4000000000000000, 0x4000000000000000]))).map (fun t => (t.pc, t.os, t.status)) =
      some (15, [], .error .invalidOperation) := by decide +kernel
/-- `ne(+inf, +inf)` is true. -/
theorem test_jmpne_infinities :
    (next? (exec (.jmpne 0) (at20 10 [0x7FF0000000000000, 0x7FF0000000000000]))).map (·.pc) = some 11 := by decide +kernel
/-- `lt(1.0, 2.0)`, 2.0 on top. -/
theorem test_jmpl_taken :
    (next? (exec (.jmpl 0) (at20 10 [0x4000000000000000, 0x3FF0000000000000]))).map (·.pc) = some 11 := by decide +kernel
theorem test_jmple_nan_not_taken :
    (next? (exec (.jmple 0) (at20 10 [0x3FF0000000000000, 0x7FF8000000000000]))).map (·.pc) = some 15 := by decide +kernel
/-- `gt(2.0, 1.0)`, 1.0 on top. -/
theorem test_jmpg_taken :
    (next? (exec (.jmpg 0) (at20 10 [0x3FF0000000000000, 0x4000000000000000]))).map (·.pc) = some 11 := by decide +kernel
/-- `ge(2.0, 3.0)`, 3.0 on top. -/
theorem test_jmpge_not_taken :
    (next? (exec (.jmpge 0) (at20 10 [0x4008000000000000, 0x4000000000000000]))).map (·.pc) = some 15 := by decide +kernel
/-- Row 4 of V-cmp: 1.0 and 1.0000000005 are `eq` and `lt`; under `CMP_ORDERED_EPS` not `lt`. -/
theorem test_tolerance : (cmpEq 0x3FF0000000000000 0x3FF0000000225C17, cmpLt false 0x3FF0000000000000 0x3FF0000000225C17,
    cmpLt true 0x3FF0000000000000 0x3FF0000000225C17, cmpEq 0 eps) = (true, true, false, false) := by decide +kernel
theorem test_call : (next? (exec (.call 6) (at20 3 []))).map (fun t => (t.cs, t.pc)) = some ([8], 10) := by decide
theorem test_call_bad_target : (next? (exec (.call 100) (at20 3 []))).map (fun t => (t.cs, t.pc, t.status)) =
    some ([8], 8, .error .invalidOperation) := by decide
theorem test_ret : (next? (exec .ret { at20 12 [] with cs := [30, 8] })).map (fun t => (t.cs, t.pc)) =
    some ([8], 30) := by decide

/-! ## Ports and halt (spec/95_test_vectors.md V-io) -/

theorem test_in : (next? (exec .inp { State.reset with input := [7, 8] })).map (fun t => (t.os, t.input)) =
    some ([7], [8]) := by decide
theorem test_in_blocked : step (loaded [0x00]) = .next (loaded [0x00]) := by rfl
theorem test_out : (next? (exec .out { State.reset with os := [5, 1], output := [9] })).map (fun t => (t.os, t.output)) =
    some ([1], [9, 5]) := by decide
theorem test_hlt : exec .hlt { State.reset with os := [1], cs := [8] } =
    .next { State.reset with os := [1], cs := [8], status := .halted, pc := 1 } := by rfl

/-! ## Witnesses: an instance that meets the hypotheses of each statement -/

theorem witness_StepRunsTheDecodedInstruction : (loaded [0x13]).status = .running ∧ 0 ≤ (loaded [0x13]).pc.toInt ∧
    decode (loaded [0x13]).params.opc ((loaded [0x13]).image.drop (loaded [0x13]).pc.toInt.toNat) = .instr .hlt := by decide
theorem witness_StoppedMachineKeepsItsState : ({ State.reset with status := .halted } : State).status ≠ .running := by decide
theorem witness_FetchOutsideTheImageStops_end :
    State.reset.status = .running ∧ (State.reset.image.length : Int) ≤ State.reset.pc.toInt := by decide
theorem witness_FetchOutsideTheImageStops_negative : ({ State.reset with pc := 0xFFFFFFFF } : State).pc.toInt < 0 := by decide
theorem witness_TruncatedOperandStops : (loaded [0x0A, 0, 0, 0]).fetchBytes = 0x0A :: [0, 0, 0] ∧
    decodeOpcode OpcTable.default 0x0A = some (.j .jmp) ∧ [(0 : Byte), 0, 0].length + 1 < (Form.j .jmp).format.length := by
  decide
theorem witness_IllegalOpcodeByteIsInvalidOperation : (loaded [0x14]).fetchBytes = [0x14] ∧
    decodeOpcode OpcTable.default 0x14 = none ∧ otherTable.legal = true := by decide
theorem witness_RegisterByteIsCheckedAtOperandRead : (loaded [0x83, 4]).fetchBytes = 0x83 :: 4 :: [] ∧
    (loaded [0x83, 3]).fetchBytes = 0x83 :: 3 :: [] ∧ decodeOpcode OpcTable.default 0x83 = some (.r .pushR) ∧
    4 ≤ (4 : Byte).toNat ∧ [Reg.ax, Reg.bx, Reg.cx, Reg.dx][(3 : Byte).toNat]? = some .dx := by decide
theorem witness_ImmediateMustBeFinite :
    (loaded [0x03, 0, 0, 0, 0, 0, 0, 0xF0, 0x7F]).fetchBytes = 0x03 :: ([0, 0, 0, 0, 0, 0, 0xF0, 0x7F] ++ []) ∧
    decodeOpcode OpcTable.default 0x03 = some (.i .pushV) ∧
    (0x7FF0000000000000#64).toNat = leNat [0, 0, 0, 0, 0, 0, 0xF0, 0x7F] ∧
    (0x7FF0000000000000#64).extractLsb' 52 11 = 0x7FF#11 ∧
    (0x7FEFFFFFFFFFFFFF#64).toNat = leNat [0xFF, 0xFF, 0xFF, 0xFF, 0xFF, 0xFF, 0xEF, 0x7F] ∧
    (0x7FEFFFFFFFFFFFFF#64).extractLsb' 52 11 ≠ 0x7FF#11 := by decide
theorem witness_JumpOperandIsSignedLittleEndian :
    (loaded [0x0A, 0, 0, 0, 0x80]).fetchBytes = 0x0A :: ([0, 0, 0, 0x80] ++ []) ∧
    decodeOpcode OpcTable.default 0x0A = some (.j .jmp) ∧ leNat [0, 0, 0, 0x80] = 2 ^ 31 ∧
    leNat [0xFF, 0xFF, 0xFF, 0x7F] = 2 ^ 31 - 1 := by decide
theorem witness_DecodeInvertsEncode :
    OpcTable.default.legal = true ∧ otherTable.legal = true ∧ (Instr.pushV 0x7FEFFFFFFFFFFFFF).wellFormed = true := by decide
theorem witness_EncodeInvertsDecode : decode OpcTable.default [0x83, 0x01, 0x55] = .instr (.pushR .bx) := by decide
theorem witness_TwentySixOpcodeBytesAreValid : OpcTable.default.legal = true := by decide
theorem witness_PlacedWordIsTheNextInstruction : State.reset.params.opc = OpcTable.default ∧ 0 ≤ State.reset.pc.toInt ∧
    decodeTableWord 8 0x0A = some (.jmp 0) := by decide
theorem witness_RamMovesEightBytesLittleEndian : Memory.wf [(22, 0x1C), (23, 0x40)] = true ∧ 1016 ≤ 1016 := by decide
theorem witness_RamLoadAfterStore : Memory.wf [(1023, 0x40)] = true ∧ (1008 + 8 ≤ 1016 ∨ 1016 + 8 ≤ 1008) := by decide
theorem witness_RamAddressOfEveryValue_invalid : isFinite 0x7FF0000000000000 = false ∧
    isFinite 0xBFE0000000000000 = true ∧ ⌊ratValue 0xBFE0000000000000⌋ < 0 ∧
    isFinite 0x4090000000000000 = true ∧ 1024 ≤ ⌊ratValue 0x4090000000000000⌋ := by decide +kernel
theorem witness_RamAddressOfEveryValue_overrun : isFinite 0x408FC80000000000 = true ∧
    1017 ≤ ⌊ratValue 0x408FC80000000000⌋ ∧ ⌊ratValue 0x408FFFFFFFFFFFFF⌋ ≤ 1023 := by decide +kernel
theorem witness_RamAddressOfEveryValue_ok : ⌊ratValue 0x408FC7FFFFFFFFFF⌋ = ((1016 : Nat) : Int) ∧
    ⌊ratValue 0x8000000000000000⌋ = ((0 : Nat) : Int) := by decide +kernel
theorem witness_ramAddr_answers : ramAddr 0x408FC00000000000 = .ok 1016 ∧ ramAddr 0x408FC80000000000 = .overrun ∧
    ramAddr 0x4090000000000000 = .invalid ∧ ramAddr (State.reset.readReg .ax) = .ok 0 := by decide +kernel
theorem witness_ValueOfAPattern : isFinite 0x0000000000000001 = true ∧ isFinite 0xFFEFFFFFFFFFFFFF = true := by decide
theorem witness_PushImmediateAndRegister : State.reset.osFull = false ∧ capped.osFull = true := by decide
/-- A state whose register AX holds a value. -/
def withAx (v : F64) : State := { State.reset with regs := ⟨v, 0, 0, 0⟩ }
theorem witness_PushFromRamLoadsEightBytes : ramAddr ((withAx 0x408FC00000000000).readReg .ax) = .ok 1016 ∧
    (withAx 0x408FC00000000000).osFull = false ∧ capped.osFull = true ∧ ramAddr (capped.readReg .ax) = .ok 0 ∧
    ramAddr ((withAx 0x4090000000000000).readReg .ax) = .invalid ∧
    ramAddr ((withAx 0x408FC80000000000).readReg .ax) = .overrun := by decide +kernel
/-- A state with one cell on the operand stack and a canonical RAM. -/
def oneCell : State := { State.reset with os := [7], ram := [(22, 0x1C)] }
theorem witness_PopDiscardsTheTop : oneCell.os = 7 :: [] ∧ State.reset.os = [] := by decide
theorem witness_PopRegisterWritesThatRegisterOnly : oneCell.os = 7 :: [] ∧ State.reset.os = [] ∧ Reg.bx ≠ Reg.ax := by decide
theorem witness_PopToRamStoresEightBytes : oneCell.ram.wf = true ∧ oneCell.os = 7 :: [] ∧
    ramAddr 0x408FC00000000000 = .ok 1016 ∧ ramAddr (oneCell.readReg .ax) = .ok 0 := by decide +kernel
theorem witness_PopToRamWithABadAddress : State.reset.os = [] ∧
    ({ withAx 0x4090000000000000 with os := [7] } : State).os = 7 :: [] ∧
    ramAddr (({ withAx 0x4090000000000000 with os := [7] } : State).readReg .ax) = .invalid ∧
    ramAddr (({ withAx 0x408FC80000000000 with os := [7] } : State).readReg .ax) = .overrun ∧
    ramAddr 0x4090000000000000 = .invalid ∧ ramAddr 0x408FC80000000000 = .overrun := by decide +kernel
theorem witness_OpcodeByteHasThreeFields : decodeOpcode OpcTable.default 0xC2 = some (.r .popAtR) ∧
    decodeOpcode OpcTable.default 0x43 = some (.i .pushAtV) ∧ decodeOpcode OpcTable.default 0x83 = some (.r .pushR) ∧
    decodeOpcode OpcTable.default 0x02 = some (.n .pop) := by decide
theorem witness_DupCopiesTheTop : oneCell.os = 7 :: [] ∧ oneCell.osFull = false ∧ State.reset.os = [] ∧
    ({ capped with os := [7] } : State).os = 7 :: [] ∧ ({ capped with os := [7] } : State).osFull = true := by decide
theorem witness_MovesKeepAllSixtyFourBits : State.reset.osFull = false ∧ oneCell.ram.wf = true ∧ oneCell.os = 7 :: [] ∧
    oneCell.osWithinCap = true ∧ ramAddr 0x408FC00000000000 = .ok 1016 := by decide +kernel
/-- A state with two cells on the operand stack. -/
def twoCells (lhs rhs : F64) : State := { State.reset with os := [rhs, lhs] }
theorem witness_BinaryArithmeticPopsTwoPushesOne :
    (twoCells 0x3FF0000000000000 0).os = 0 :: 0x3FF0000000000000 :: [] ∧ (twoCells 0x3FF0000000000000 0).osWithinCap = true ∧
    fadd 0x3FF0000000000000 0 = .value 0x3FF0000000000000 ∧ fsub 0x3FF0000000000000 0 = .value 0x3FF0000000000000 ∧
    fmul 0x3FF0000000000000 0 = .value 0 ∧ fdiv 0x3FF0000000000000 0 = .value 0x7FF0000000000000 ∧
    fadd 0x7FF0000000000000 0xFFF0000000000000 = .nan ∧ fsub 0x7FF0000000000000 0x7FF0000000000000 = .nan ∧
    fmul 0 0x7FF0000000000000 = .nan ∧ fdiv 0 0 = .nan := by decide +kernel
theorem witness_binaryOps : (Instr.add, fadd) ∈ binaryOps ∧ (Instr.sub, fsub) ∈ binaryOps ∧ (Instr.mul, fmul) ∈ binaryOps ∧
    (Instr.div, fdiv) ∈ binaryOps := by simp [binaryOps]
theorem witness_SqrtReplacesTheTop : oneCell.os = 7 :: [] ∧ oneCell.osWithinCap = true ∧
    fsqrt 0x4048800000000000 = .value 0x401C000000000000 ∧ fsqrt 0xBFF0000000000000 = .nan := by decide +kernel
theorem witness_SumsAreRoundedOnce : isFinite 0x7FEFFFFFFFFFFFFF = true ∧ isFinite 0x8000000000000001 = true ∧
    isFinite 0x8000000000000000 = true ∧ ratValue 0x8000000000000000 + ratValue 0 = 0 ∧
    ratValue 0x8000000000000000 - ratValue 0 = 0 := by decide +kernel
theorem witness_ProductsAndQuotientsAreRoundedOnce : isFinite 0x7FEFFFFFFFFFFFFF = true ∧
    isFinite 0x0000000000000001 = true ∧ isZero 0x0000000000000001 = false := by decide
theorem witness_SquareRootIsRoundedOnce : isFinite 0x0000000000000001 = true ∧ 0 ≤ ratValue 0x0000000000000001 ∧
    0 ≤ ratValue 0x8000000000000000 := by decide +kernel
theorem witness_DefaultResultsAtTheCorners : isFinite 0x0000000000000001 = true ∧ isZero 0x0000000000000001 = false ∧
    f64Sign 0x0000000000000001 = false ∧ isZero 0x8000000000000000 = true ∧ isInf 0xFFF0000000000000 = true ∧
    isNaN 0xFFF0000000000000 = false ∧ signedUnits 0xFFF0000000000000 < 0 ∧ isNaN 0x7FF0000000000001 = true := by
  decide +kernel
/-- Each bound is met with equality, but for the quotient's: no quotient of two finite values lies between it and `2^1024`. -/
theorem witness_DefaultResultsAtTheCorners_overflow : isFinite 0x7FEFFFFFFFFFFFFF = true ∧
    ratValue 0x7FEFFFFFFFFFFFFF + ratValue 0x7C90000000000000 = 2 ^ 1024 - 2 ^ 970 ∧
    ratValue 0xFFEFFFFFFFFFFFFF + ratValue 0xFC90000000000000 = -(2 ^ 1024 - 2 ^ 970) ∧
    ratValue 0x7FEFFFFFFFFFFFFF - ratValue 0xFC90000000000000 = 2 ^ 1024 - 2 ^ 970 ∧
    ratValue 0xFFEFFFFFFFFFFFFF - ratValue 0x7C90000000000000 = -(2 ^ 1024 - 2 ^ 970) ∧
    ratValue 0x5FEFFFFFFC000000 * ratValue 0x5FF0000002000000 = 2 ^ 1024 - 2 ^ 970 ∧
    ratValue 0xDFEFFFFFFC000000 * ratValue 0x5FF0000002000000 = -(2 ^ 1024 - 2 ^ 970) ∧
    ratValue 0x7FEFFFFFFFFFFFFF / ratValue 0x3FEFFFFFFFFFFFFF = 2 ^ 1024 ∧
    ratValue 0xFFEFFFFFFFFFFFFF / ratValue 0x3FEFFFFFFFFFFFFF = -2 ^ 1024 := by decide +kernel
/-- R92's overflow row at its boundary: the tie goes to the infinity, and the next smaller sum to the greatest finite value. -/
theorem test_sum_overflows_at_the_midpoint :
    fadd 0x7FEFFFFFFFFFFFFF 0x7C90000000000000 = .value 0x7FF0000000000000 ∧
    fadd 0x7FEFFFFFFFFFFFFF 0x7C8FFFFFFFFFFFFF = .value 0x7FEFFFFFFFFFFFFF := by decide +kernel
/-- R96: `-2.0 * +0.0` is `-0.0`; IEEE-754: `0.0 / -1.0` is `-0.0`, and a negative product that underflows is `-0.0`. -/
theorem test_sign_of_zero_results : fmul 0xC000000000000000 0 = .value 0x8000000000000000 ∧
    fdiv 0 0xBFF0000000000000 = .value 0x8000000000000000 ∧ fmul 0x8000000000000001 1 = .value 0x8000000000000000 := by
  decide +kernel
theorem witness_InfiniteOperandsFollowIeee : isInf 0xFFF0000000000000 = true ∧ isFinite 0x8000000000000000 = true ∧
    isNaN 0x7FF0000000000000 = false ∧ isZero 0x7FF0000000000000 = false ∧ isNaN 0x0000000000000001 = false ∧
    isZero 0x0000000000000001 = false := by decide
theorem witness_OrderedComparisonsCompareValues : isFinite 0x8000000000000000 = true ∧ isFinite 0 = true ∧
    isNaN 0x7FF0000000000000 = false ∧ isNaN 0x7FF8000000000000 = true := by decide
theorem witness_EqualityIsWithinTheTolerance : isFinite 0 = true ∧ isFinite eps = true ∧
    fsub 0 eps = .value 0xBE112E0BE826D695 ∧ isFinite 0xBE112E0BE826D695 = true ∧ isNaN 0x7FF8000000000000 = true ∧
    isInf 0xFFF0000000000000 = true ∧
    fsub 0x7FF0000000000000 0xFFF0000000000000 = .value 0x7FF0000000000000 ∧ isInf 0x7FF0000000000000 = true ∧
    isFinite 0x7FEFFFFFFFFFFFFF = true ∧ isFinite 0xFC90000000000000 = true ∧
    2 ^ 1024 - 2 ^ 970 ≤ |ratValue 0x7FEFFFFFFFFFFFFF - ratValue 0xFC90000000000000| := by decide +kernel
theorem witness_JmpBranchesAlways : (0 : Int) ≤ (at20 10 []).pc.toInt + 1 + (8 : W32).toInt ∧
    (at20 10 []).pc.toInt + 1 + (8 : W32).toInt < (at20 10 []).image.length ∧
    ((at20 10 []).image.length : Int) ≤ (at20 10 []).pc.toInt + 1 + (9 : W32).toInt ∧
    (at20 10 []).pc.toInt + 1 + (0xFFFFFFF4 : W32).toInt < 0 := by decide
theorem witness_ConditionalJumpsPopTwoAndBranch : (at20 10 [0, 0]).os = 0 :: 0 :: [] ∧ (at20 10 [0]).os.length < 2 ∧
    cmpEq 0 0 = true ∧ cmpNe 0 0 = false ∧ (at20 10 []).params.validateUntaken = false ∧
    ({ at20 10 [0, 0] with params := { Params.default with validateUntaken := true } } : State).params.validateUntaken = true ∧
    ((at20 10 [0, 0]).image.length : Int) ≤ (at20 10 [0, 0]).pc.toInt + 1 + (9 : W32).toInt := by decide +kernel
theorem witness_condJumps (e : Bool) : (Instr.jmpe, cmpEq) ∈ condJumps e ∧ (Instr.jmpne, cmpNe) ∈ condJumps e ∧
    (Instr.jmpl, cmpLt e) ∈ condJumps e ∧ (Instr.jmple, cmpLe e) ∈ condJumps e ∧ (Instr.jmpg, cmpGt e) ∈ condJumps e ∧
    (Instr.jmpge, cmpGe e) ∈ condJumps e := by simp [condJumps]
theorem witness_CallPushesThenBranches : (at20 3 []).csFull = false ∧ capped.csFull = true ∧
    (0 : Int) ≤ (at20 3 []).pc.toInt + 1 + (15 : W32).toInt ∧
    (at20 3 []).pc.toInt + 1 + (15 : W32).toInt < (at20 3 []).image.length ∧
    ((at20 3 []).image.length : Int) ≤ (at20 3 []).pc.toInt + 1 + (16 : W32).toInt := by decide
theorem witness_RetReturnsToTheSavedAddress : ({ State.reset with cs := [8] } : State).cs = 8 :: [] ∧ State.reset.cs = [] := by
  decide
theorem witness_CallThenRetComesBack : (at20 3 []).status = .running ∧
    (next? (exec (.call 6) (at20 3 []))).map (·.status) = some .running := by decide
theorem witness_AssembledDeltaReachesItsTarget : 0 ≤ (at20 10 []).pc.toInt ∧ (at20 10 []).image.length ≤ 2 ^ 31 - 1 ∧
    (0 : Int) ≤ 19 ∧ (19 : Int) < (at20 10 []).image.length := by decide
theorem witness_InTakesTheNextValue : ({ State.reset with input := [7] } : State).input = 7 :: [] ∧
    State.reset.osFull = false ∧ capped.osFull = true ∧ State.reset.closeInput.input = [] ∧
    State.reset.closeInput.inputClosed = true := by decide
theorem witness_BlockedInWaitsAndResumes : State.reset.input = [] ∧ State.reset.inputClosed = false ∧
    State.reset.osFull = false := by decide
theorem witness_OutSendsTheTop : oneCell.os = 7 :: [] ∧ State.reset.os = [] := by decide
theorem witness_PortsAreInProgramOrder : (next? (exec .out oneCell)).isSome = true ∧
    (next? (step ({ loaded [0x01] with os := [7] }))).map (·.output) = some [7] ∧
    (next? (step (loaded [0xFF]))).isSome = true := by decide
theorem witness_UnderflowIsCheckedBeforeAnyPop : State.reset.os.length < 1 ∧ oneCell.os.length < 2 ∧
    State.reset.cs.length < 1 := by decide
theorem witness_InvalidRegisterHasOneCause : (loaded [0x83, 4]).status = .running ∧
    (next? (step (loaded [0x83, 4]))).map (·.status) = some (.error .invalidRegister) := by decide
theorem witness_OnlyHltEndsARunSuccessfully : (loaded [0x13]).status = .running ∧
    (next? (step (loaded [0x13]))).map (·.status) = some .halted ∧ (fault? (step State.reset)).isSome = true := by decide
theorem witness_NoInstructionIsRefused : State.reset.params.ostackCap = none ∧ State.reset.params.cstackCap = none ∧
    (fault? (exec .inp State.reset.closeInput)).isSome = true := by decide
theorem witness_EveryStepKeepsTheInvariant : (loaded [0x13]).Inv ∧ (next? (step (loaded [0x13]))).isSome = true :=
  ⟨⟨by decide, by decide, by decide +kernel, by decide, by decide, (fun _ h => nomatch h), by decide, by decide⟩, by decide⟩
theorem witness_LoadMeetsTheInvariant : [(0x13 : Byte)].length ≤ 2 ^ 31 - 1 := by decide +kernel
theorem witness_ImageAndParametersNeverChange : (next? (step (loaded [0x13]))).isSome = true := by decide
theorem witness_RegistersAreWrittenOnlyByPopR : (next? (exec .pop oneCell)).isSome = true ∧
    (next? (exec (.popR .ax) oneCell)).isSome = true ∧ Reg.bx ≠ Reg.ax ∧ oneCell.os ≠ [] ∧
    (next? (exec (.pushR .ax) oneCell)).isSome = true ∧ (⟨0, 5, 5, 5⟩ : Regs).read .ax = oneCell.readReg .ax := by decide
theorem witness_RamIsWrittenOnlyByTheStoreForms : (next? (exec .pop oneCell)).isSome = true ∧
    (next? (exec (.popAtV 0x408FC00000000000) oneCell)).isSome = true ∧ ramAddr 0x408FC00000000000 = .ok 1016 ∧
    (next? (exec (.popAtV 0x4090000000000000) oneCell)).isSome = true ∧ ramAddr 0x4090000000000000 = .invalid := by
  decide +kernel
theorem witness_CallStackIsChangedOnlyByCallAndRet : (next? (exec (.call 6) (at20 3 []))).isSome = true := by decide
theorem witness_SequentialInstructionsAdvanceByTheirLength : (next? (exec .pop oneCell)).isSome = true ∧
    Instr.pop.format ≠ .j ∧ Instr.pop ≠ .ret ∧ (next? (exec .inp State.reset)).isSome = true := by decide

end Sys2Proof.Tests
end

section
/-! The RAM's frame on every list of cells, and the two stacks against their capacities. -/

namespace Sys2Proof.Machine

/-! ## RAM -/

/-- A write of one byte leaves every other byte, on a list in canonical form or not. -/
theorem Memory.read_write_of_ne (m : Memory) {a b : Nat} (v : Byte) (h : b ≠ a) : (m.write a v).read b = m.read b := by
  induction m with
  | nil =>
    rw [Memory.write]
    split
    · rfl
    · rw [Memory.read_cons, if_neg (Ne.symm h)]
  | cons e m ih =>
    obtain ⟨k, c⟩ := e
    rw [Memory.write]
    split
    · split
      · rfl
      · rw [Memory.read_cons, if_neg (Ne.symm h)]
    · split
      · next hak =>
        subst hak
        split <;> simp [Memory.read_cons, Ne.symm h]
      · rw [Memory.read_cons, Memory.read_cons, ih]

theorem Memory.read_writeBytes_of_outside (m : Memory) {a b : Nat} (bs : List Byte) (h : b < a ∨ a + bs.length ≤ b) :
    (m.writeBytes a bs).read b = m.read b := by
  induction bs generalizing m a with
  | nil => rfl
  | cons c bs ih =>
    rw [List.length_cons] at h
    have hne : b < a ∨ a + 1 ≤ b := by omega
    rw [Memory.writeBytes, ih (m.write a c) (by omega), Memory.read_write_of_ne m c (by omega)]

/-- A store changes no byte outside its eight (spec/20_memory.md R32). -/
theorem Memory.read_store_of_outside (m : Memory) {a b : Nat} (w : F64) (h : b < a ∨ a + 8 ≤ b) :
    (m.store a w).read b = m.read b :=
  Memory.read_writeBytes_of_outside m (f64Bytes w) (by rwa [f64Bytes_length])

/-! ## Stack capacities -/

theorem withinCap_of_le {cap : Option Nat} {d d' : Nat} (hle : d' ≤ d) (h : withinCap cap d = true) :
    withinCap cap d' = true := by
  cases cap with
  | none => rfl
  | some c =>
    simp only [withinCap, decide_eq_true_eq] at h ⊢
    omega

theorem withinCap_zero (cap : Option Nat) : withinCap cap 0 = true := by
  cases cap with
  | none => rfl
  | some c => exact decide_eq_true (Nat.zero_le c)

theorem withinCap_succ_of_not_full {cap : Option Nat} {d : Nat} (h : stackFull cap d = false) :
    withinCap cap (d + 1) = true := by
  cases cap with
  | none => rfl
  | some c =>
    simp only [stackFull, withinCap, decide_eq_false_iff_not, decide_eq_true_eq] at h ⊢
    omega

end Sys2Proof.Machine
end

section
/-! What an instruction can change. `OperandOnly` is the change that most shared operations make: none but to the operand
stack, the ports, the status and the draw count. `ExecEffect` says for each instruction what may become of every other
piece of state, and `exec_effect` is the one case analysis over the 26 instructions from which the frame statements
and the invariant follow. -/

namespace Sys2Proof.Machine

/-! ## Changes to the operand stack, the ports and the status -/

/-- From `s` to `t` the call stack, the registers, the RAM, `pc`, the image and the parameters are unchanged, and the
operand stack has not left its capacity. -/
structure OperandOnly (s t : State) : Prop where
  cs : t.cs = s.cs
  regs : t.regs = s.regs
  ram : t.ram = s.ram
  pc : t.pc = s.pc
  image : t.image = s.image
  params : t.params = s.params
  osBounded : s.osWithinCap = true → t.osWithinCap = true

namespace OperandOnly

theorem refl (s : State) : OperandOnly s s := ⟨rfl, rfl, rfl, rfl, rfl, rfl, id⟩

theorem trans {s t u : State} (h₁ : OperandOnly s t) (h₂ : OperandOnly t u) : OperandOnly s u where
  cs := h₂.cs.trans h₁.cs
  regs := h₂.regs.trans h₁.regs
  ram := h₂.ram.trans h₁.ram
  pc := h₂.pc.trans h₁.pc
  image := h₂.image.trans h₁.image
  params := h₂.params.trans h₁.params
  osBounded h := h₂.osBounded (h₁.osBounded h)

theorem setStatus (s : State) (v : Status) : OperandOnly s (s.setStatus v) := ⟨rfl, rfl, rfl, rfl, rfl, rfl, id⟩

theorem setInput (s : State) (v : List F64) : OperandOnly s (s.setInput v) := ⟨rfl, rfl, rfl, rfl, rfl, rfl, id⟩

theorem setNanDraws (s : State) (n : Nat) : OperandOnly s (s.setNanDraws n) := ⟨rfl, rfl, rfl, rfl, rfl, rfl, id⟩

theorem emit (s : State) (w : F64) : OperandOnly s (s.emit w) := ⟨rfl, rfl, rfl, rfl, rfl, rfl, id⟩

theorem setOs_shorter {s : State} {os : List F64} (h : os.length ≤ s.os.length) : OperandOnly s (s.setOs os) :=
  ⟨rfl, rfl, rfl, rfl, rfl, rfl, withinCap_of_le h⟩

theorem setOs_push {s : State} (v : F64) (h : s.osFull = false) : OperandOnly s (s.setOs (v :: s.os)) :=
  ⟨rfl, rfl, rfl, rfl, rfl, rfl, fun _ => withinCap_succ_of_not_full h⟩

theorem of_pushOs {v : F64} {s t : State} (h : pushOs v s = .next t) : OperandOnly s t := by
  obtain ⟨hroom, rfl⟩ := pushOs_next.1 h
  exact setOs_push v hroom

theorem of_popOs {s t : State} {k : F64 → State → Out} (h : popOs s k = .next t)
    (hk : ∀ w s', k w s' = .next t → OperandOnly s' t) : OperandOnly s t := by
  obtain ⟨-, rfl⟩ | ⟨w, rest, hos, hnext⟩ := popOs_next.1 h
  · exact setStatus s _
  · exact (setOs_shorter (by simp [hos])).trans (hk w _ hnext)

theorem of_pushResult {op : ArithOp} {xs : List F64} {r : FResult} {s t : State}
    (h : pushResult op xs r s = .next t) : OperandOnly s t := by
  obtain ⟨hroom, ⟨v, -, rfl⟩ | ⟨-, rfl⟩⟩ := pushResult_next.1 h
  · exact setOs_push v hroom
  · exact (setNanDraws s _).trans (setOs_push _ hroom)

theorem of_binaryArith {op : ArithOp} {f : F64 → F64 → FResult} {s t : State} (h : binaryArith op f s = .next t) :
    OperandOnly (s.past .n) t := by
  obtain ⟨-, rfl⟩ | ⟨rhs, lhs, rest, hos, hpush⟩ := binaryArith_next.1 h
  · exact setStatus _ _
  · exact (setOs_shorter (by simp [hos]; omega)).trans (of_pushResult hpush)

theorem of_pushFromRam {v : F64} {s t : State} (h : pushFromRam v s = .next t) : OperandOnly s t := by
  obtain ⟨-, rfl⟩ | ⟨a, -, hroom, rfl⟩ := pushFromRam_next.1 h
  · exact setStatus s _
  · exact setOs_push _ hroom

end OperandOnly

/-! ## The effect of each instruction -/

/-- What `POP R` answers: the underflow, or the top cell in its register (spec/41_stack_moves.md R85). -/
theorem exec_popR_next {r : Reg} {s t : State} :
    exec (.popR r) s = .next t ↔
      (s.os = [] ∧ t = (s.past .r).setStatus (.error .stackUnderflow)) ∨
      ∃ w rest, s.os = w :: rest ∧ t = ((s.past .r).setOs rest).writeReg r w := by
  simp only [exec, execPopR, popOs_next, State.past_os, Host.Outcome.next.injEq, eq_comm (b := t)]

/-- `x` is the value whose `ram_addr` the instruction stores at: the operand of `POP [v]` or `POP [R]`. -/
def StoresAt (i : Instr) (s : State) (x : F64) : Prop := i = .popAtV x ∨ ∃ r, i = .popAtR r ∧ x = s.readReg r

theorem StoresAt.unique {i : Instr} {s : State} {x y : F64} (hx : StoresAt i s x) (hy : StoresAt i s y) : x = y := by
  obtain rfl | ⟨r, rfl, rfl⟩ := hx <;> obtain hy | ⟨q, hq, rfl⟩ := hy
  · exact Instr.popAtV.inj hy
  · nomatch hq
  · nomatch hy
  · rw [Instr.popAtR.inj hq]

/-- What instruction `i`, run from `s`, may have done to each piece of state when it answers `t`. -/
structure ExecEffect (i : Instr) (s t : State) : Prop where
  /-- spec/10_state.md R20. -/
  image : t.image = s.image
  /-- spec/00_scope.md R4 (log 2). -/
  params : t.params = s.params
  /-- Only `POP R` writes a register, its own (spec/10_state.md R13). -/
  regs : t.regs = s.regs ∨ ∃ r w, i = .popR r ∧ t.regs = s.regs.write r w
  /-- Only `POP [v]` and `POP [R]` store (spec/10_state.md R19). -/
  ram : t.ram = s.ram ∨ ∃ x a w, StoresAt i s x ∧ ramAddr x = .ok a ∧ t.ram = s.ram.store a w
  /-- Only `CALL` pushes the call stack and only `RET` pops it (spec/10_state.md R18). -/
  cs : t.cs = s.cs ∨ (s.csFull = false ∧ (∃ d, i = .call d) ∧ t.cs = (s.pc + 5#32) :: s.cs) ∨
    (i = .ret ∧ ∃ n, s.cs = n :: t.cs)
  /-- `pc` is past the instruction, but for a blocked `IN`, a branch to a legal target, and `RET`. -/
  pc : t.pc = s.pc + BitVec.ofNat 32 i.length ∨
    (i = .inp ∧ s.input = [] ∧ s.inputClosed = false ∧ t = s) ∨
    (i.format = .j ∧ ∃ g, s.legalTarget g = true ∧ t.pc = BitVec.ofInt 32 g) ∨
    (i = .ret ∧ s.cs = t.pc :: t.cs)
  osBounded : s.osWithinCap = true → t.osWithinCap = true

namespace ExecEffect

theorem of_operandOnly {i : Instr} {s t : State} (h : OperandOnly (s.past i.format) t) : ExecEffect i s t where
  image := h.image
  params := h.params
  regs := .inl h.regs
  ram := .inl h.ram
  cs := .inl h.cs
  pc := .inl h.pc
  osBounded := h.osBounded

/-- A branch as an instruction's last act: `pc` moves to a legal target, or the error is taken. -/
theorem of_jumpTo {i : Instr} {s u t : State} {g : Int} (hi : i.format = .j) (e : ExecEffect i s u)
    (hpc : u.pc = s.pc + BitVec.ofNat 32 i.length) (h : jumpTo g u = .next t) : ExecEffect i s t := by
  obtain ⟨hlegal, rfl⟩ | ⟨-, rfl⟩ := jumpTo_next.1 h
  · have hlegal' : s.legalTarget g = true := by
      rwa [State.legalTarget, State.imageLen, e.image] at hlegal
    exact ⟨e.image, e.params, e.regs, e.ram, e.cs, .inr (.inr (.inl ⟨hi, g, hlegal', rfl⟩)), e.osBounded⟩
  · exact ⟨e.image, e.params, e.regs, e.ram, e.cs, .inl hpc, e.osBounded⟩

theorem of_condJump {i : Instr} {pred : F64 → F64 → Bool} {d : W32} {s t : State} (hi : i.format = .j)
    (h : condJump pred d s = .next t) : ExecEffect i s t := by
  have hpast : s.past .j = s.past i.format := by rw [hi]
  rw [condJump_next, hpast] at h
  obtain ⟨-, rfl⟩ | ⟨rhs, lhs, rest, hos, hbranch⟩ := h
  · exact of_operandOnly (.setStatus _ _)
  · have hpop : OperandOnly (s.past i.format) ((s.past i.format).setOs rest) :=
      .setOs_shorter (by simp [hos]; omega)
    obtain ⟨-, rfl⟩ | ⟨-, ⟨-, hjump⟩ | ⟨-, rfl⟩⟩ := hbranch
    · exact of_operandOnly (hpop.trans (.setStatus _ _))
    · exact of_jumpTo hi (of_operandOnly hpop) rfl hjump
    · exact of_operandOnly hpop

theorem of_popToRam {i : Instr} {x : F64} {s t : State} (hx : StoresAt i s x)
    (h : popToRam x (s.past i.format) = .next t) : ExecEffect i s t := by
  obtain ⟨-, rfl⟩ | ⟨w, rest, hos, hstore⟩ := popToRam_next.1 h
  · exact of_operandOnly (.setStatus _ _)
  · rw [State.past_os] at hos
    have hpop : OperandOnly (s.past i.format) ((s.past i.format).setOs rest) := .setOs_shorter (by simp [hos])
    obtain ⟨-, rfl⟩ | ⟨a, ha, rfl⟩ := hstore
    · exact of_operandOnly (hpop.trans (.setStatus _ _))
    · exact { of_operandOnly hpop with ram := .inr ⟨x, a, w, hx, ha, rfl⟩, pc := .inl rfl }

theorem of_popR {r : Reg} {s t : State} (h : exec (.popR r) s = .next t) : ExecEffect (.popR r) s t := by
  obtain ⟨-, rfl⟩ | ⟨w, rest, hos, rfl⟩ := exec_popR_next.1 h
  · exact of_operandOnly (.setStatus _ _)
  · have hpop : ExecEffect (.popR r) s ((s.past .r).setOs rest) :=
      of_operandOnly (.setOs_shorter (by simp [hos]))
    exact { hpop with regs := .inr ⟨r, w, rfl, rfl⟩, pc := .inl rfl }

theorem of_out {s t : State} (h : execOut s = .next t) : ExecEffect .out s t := by
  obtain ⟨-, rfl⟩ | ⟨w, rest, hos, hemit⟩ := popOs_next.1 h
  · exact of_operandOnly (.setStatus _ _)
  · rw [State.past_os] at hos
    cases hemit
    exact of_operandOnly ((OperandOnly.setOs_shorter (by simp [hos])).trans (.emit _ w))

theorem of_pop {s t : State} (h : execPop s = .next t) : ExecEffect .pop s t :=
  of_operandOnly (.of_popOs h fun _ s' hk => by cases hk; exact .refl _)

theorem of_sqrt {s t : State} (h : execSqrt s = .next t) : ExecEffect .sqrt s t :=
  of_operandOnly (.of_popOs h fun _ _ hk => .of_pushResult hk)

theorem of_dup {s t : State} (h : execDup s = .next t) : ExecEffect .dup s t := by
  obtain ⟨-, rfl⟩ | ⟨w, rest, -, hpush⟩ := popOs_next.1 h
  · exact of_operandOnly (.setStatus _ _)
  · exact of_operandOnly (.of_pushOs hpush)

theorem of_in {s t : State} (h : execIn s = .next t) : ExecEffect .inp s t := by
  unfold execIn at h
  split at h
  · exact of_operandOnly ((OperandOnly.setInput _ _).trans (.of_pushOs h))
  · next hinput =>
    split at h
    · exact absurd h stopUnspecified_ne_next
    · next hopen =>
      cases h
      exact ⟨rfl, rfl, .inl rfl, .inl rfl, .inl rfl, .inr (.inl ⟨rfl, hinput, by simpa using hopen, rfl⟩), id⟩

theorem of_call {d : W32} {s t : State} (h : execCall d s = .next t) : ExecEffect (.call d) s t := by
  obtain ⟨hroom, hjump⟩ := pushCs_next.1 h
  refine of_jumpTo rfl ?_ rfl hjump
  exact ⟨rfl, rfl, .inl rfl, .inl rfl, .inr (.inl ⟨hroom, ⟨d, rfl⟩, rfl⟩), .inl rfl, id⟩

theorem of_ret {s t : State} (h : execRet s = .next t) : ExecEffect .ret s t := by
  obtain ⟨-, rfl⟩ | ⟨n, rest, hcs, hjump⟩ := popCs_next.1 h
  · exact of_operandOnly (.setStatus _ _)
  · cases hjump
    exact ⟨rfl, rfl, .inl rfl, .inl rfl, .inr (.inr ⟨rfl, n, hcs⟩), .inr (.inr (.inr ⟨rfl, hcs⟩)), id⟩

end ExecEffect

/-- Everything an instruction may have changed when it answers a next state. -/
theorem exec_effect {i : Instr} {s t : State} (h : exec i s = .next t) : ExecEffect i s t := by
  cases i with
  | inp => exact .of_in h
  | out => exact .of_out h
  | pop => exact .of_pop h
  | popR r => exact .of_popR h
  | popAtV v => exact .of_popToRam (.inl rfl) h
  | popAtR r => exact .of_popToRam (.inr ⟨r, rfl, rfl⟩) h
  | pushV v => exact .of_operandOnly (.of_pushOs h)
  | pushR r => exact .of_operandOnly (.of_pushOs h)
  | pushAtV v => exact .of_operandOnly (.of_pushFromRam h)
  | pushAtR r => exact .of_operandOnly (.of_pushFromRam h)
  | add => exact .of_operandOnly (.of_binaryArith h)
  | sub => exact .of_operandOnly (.of_binaryArith h)
  | mul => exact .of_operandOnly (.of_binaryArith h)
  | div => exact .of_operandOnly (.of_binaryArith h)
  | sqrt => exact .of_sqrt h
  | dup => exact .of_dup h
  | jmp d => exact .of_jumpTo rfl (.of_operandOnly (.refl _)) rfl h
  | jmpe d => exact .of_condJump rfl h
  | jmpne d => exact .of_condJump rfl h
  | jmpl d => exact .of_condJump rfl h
  | jmple d => exact .of_condJump rfl h
  | jmpg d => exact .of_condJump rfl h
  | jmpge d => exact .of_condJump rfl h
  | call d => exact .of_call h
  | ret => exact .of_ret h
  | hlt => exact .of_operandOnly (halt_next.1 h ▸ .setStatus _ _)

end Sys2Proof.Machine
end

section
/-! How many bytes the decoder has read when it answers, and `pc` after them. -/

namespace Sys2Proof

open Machine

/-- The bytes read before the decoder gives up: what `pc` has advanced by (spec/40_fetch_decode.md R71 to R73). -/
def DecodeError.bytesRead : DecodeError → Nat
  | .opcodeBeyondImage => 0
  | .invalidOpcode | .operandBeyondImage => 1
  | .invalidRegister => Format.r.length
  | .nonFiniteImmediate => Format.i.length

/-- The bytes a decoder's answer rests on. -/
def Decoded.bytesRead : Decoded → Nat
  | .instr i => i.length
  | .bad e => e.bytesRead

@[simp] theorem NForm.instr_length (f : NForm) : f.instr.length = 1 := by cases f <;> rfl
@[simp] theorem RForm.instr_length (f : RForm) (r : Reg) : (f.instr r).length = 2 := by cases f <;> rfl
@[simp] theorem JForm.instr_length (f : JForm) (d : W32) : (f.instr d).length = 5 := by cases f <;> rfl
@[simp] theorem IForm.instr_length (f : IForm) (v : F64) : (f.instr v).length = 9 := by cases f <;> rfl

/-- Operand read never claims a byte that is not there; one byte more is the opcode's. -/
theorem readOperand_bytesRead_le (f : Form) (bs : List Byte) : (readOperand f bs).bytesRead ≤ bs.length + 1 := by
  unfold readOperand
  split
  · simp [Decoded.bytesRead]
  · split <;> simp [Decoded.bytesRead, DecodeError.bytesRead, Format.length]
  · simp [Decoded.bytesRead]
  · dsimp only
    split <;> simp [Decoded.bytesRead, DecodeError.bytesRead, Format.length]
  · simp [Decoded.bytesRead, DecodeError.bytesRead]

theorem decode_bytesRead_le (t : OpcTable) (bs : List Byte) : (decode t bs).bytesRead ≤ bs.length := by
  cases bs with
  | nil => exact Nat.le_refl 0
  | cons op rest =>
    rw [decode, List.length_cons]
    split
    · exact Nat.le_add_left 1 _
    · exact readOperand_bytesRead_le _ rest

end Sys2Proof

namespace Sys2Proof.Machine

/-- A step that finds no instruction takes an error past the bytes read, and changes nothing else. -/
theorem decodeStop_next_advance {e : DecodeError} {s t : State} (h : decodeStop e s = .next t) :
    ∃ k, t = (s.advance e.bytesRead).setStatus (.error k) := by
  obtain ⟨rfl, ht⟩ | ⟨rfl, ht⟩ | ⟨rfl, ht⟩ := decodeStop_next.1 h <;> exact ⟨_, ht⟩

theorem State.fetchBytes_length {s : State} (h : 0 ≤ s.pc.toInt) :
    s.fetchBytes.length = s.imageLen - s.pc.toInt.toNat := by
  rw [State.fetchBytes, if_neg (by omega), List.length_drop, State.imageLen]

end Sys2Proof.Machine
end

section
/-! The invariant `State.Inv`: each piece of state an instruction changes keeps its part of it, and so does every step. -/

namespace Sys2Proof.Machine

/-- Within an image that fits, `pc` moves over bytes that are there without wrapping (spec/10_state.md R15). -/
theorem State.Inv.toInt_pc_add {s : State} (h : s.Inv) {n : Nat} (hn : n ≤ s.fetchBytes.length) :
    (s.pc + BitVec.ofNat 32 n).toInt = s.pc.toInt + n ∧ s.pc.toInt + n ≤ s.imageLen := by
  have hfits := h.imageFits
  have hnonneg := h.pcNonneg
  have hin := h.pcInImage
  rw [State.fetchBytes_length hnonneg] at hn
  have hle : s.pc.toInt + n ≤ s.imageLen := by omega
  refine ⟨?_, hle⟩
  rw [BitVec.toInt_add, BitVec.toInt_ofNat', Int.add_bmod_bmod]
  exact Int.bmod_eq_of_le (by omega) (by omega)

theorem State.legalTarget_iff {s : State} {g : Int} : s.legalTarget g = true ↔ 0 ≤ g ∧ g < s.imageLen := by
  simp [State.legalTarget]

theorem State.Inv.toInt_legalTarget {s : State} (h : s.Inv) {g : Int} (hg : s.legalTarget g = true) :
    (BitVec.ofInt 32 g).toInt = g := by
  have hfits := h.imageFits
  obtain ⟨hlo, hhi⟩ := State.legalTarget_iff.1 hg
  rw [BitVec.toInt_ofInt]
  exact Int.bmod_eq_of_le (by omega) (by omega)

section Effect

variable {i : Instr} {s t : State}

/-- `PC` stays in `0..IMAGE_LEN` (spec/10_state.md R15). -/
theorem ExecEffect.pc_inImage (e : ExecEffect i s t) (h : s.Inv) (hlen : i.length ≤ s.fetchBytes.length) :
    0 ≤ t.pc.toInt ∧ t.pc.toInt ≤ s.imageLen := by
  obtain hpc | ⟨-, -, -, rfl⟩ | ⟨-, g, hg, hpc⟩ | ⟨-, hcs⟩ := e.pc
  · obtain ⟨hadd, hle⟩ := h.toInt_pc_add hlen
    rw [hpc, hadd]
    have := h.pcNonneg
    omega
  · exact ⟨h.pcNonneg, h.pcInImage⟩
  · rw [hpc, h.toInt_legalTarget hg]
    obtain ⟨hlo, hhi⟩ := State.legalTarget_iff.1 hg
    omega
  · obtain ⟨hlo, hhi⟩ := h.returnsInImage t.pc (by simp [hcs])
    omega

/-- Every return offset lies in `1..IMAGE_LEN` (spec/43_control_transfer.md R114, D25). -/
theorem ExecEffect.returns_inImage (e : ExecEffect i s t) (h : s.Inv) (hlen : i.length ≤ s.fetchBytes.length) :
    ∀ n ∈ t.cs, 1 ≤ n.toInt ∧ n.toInt ≤ s.imageLen := by
  intro n hn
  obtain hcs | ⟨-, ⟨d, rfl⟩, hcs⟩ | ⟨-, top, hcs⟩ := e.cs
  · exact h.returnsInImage n (hcs ▸ hn)
  · rw [hcs] at hn
    obtain rfl | hn := List.mem_cons.1 hn
    · obtain ⟨hadd, hle⟩ := h.toInt_pc_add (n := 5) hlen
      rw [hadd]
      have := h.pcNonneg
      omega
    · exact h.returnsInImage n hn
  · exact h.returnsInImage n (hcs ▸ List.mem_cons_of_mem top hn)

theorem ExecEffect.csBounded (e : ExecEffect i s t) (h : s.Inv) : t.csWithinCap = true := by
  rw [State.csWithinCap, e.params]
  obtain hcs | ⟨hroom, -, hcs⟩ | ⟨-, top, hcs⟩ := e.cs
  · rw [hcs]
    exact h.csBounded
  · rw [hcs]
    exact withinCap_succ_of_not_full hroom
  · exact withinCap_of_le (by simp [hcs]) h.csBounded

theorem ExecEffect.ram_canonical (e : ExecEffect i s t) (h : s.Inv) : t.ram.wf = true ∧ t.ram.inRam = true := by
  obtain hram | ⟨x, a, w, -, ha, hram⟩ := e.ram
  · rw [hram]
    exact ⟨h.ramCanonical, h.ramInRange⟩
  · rw [hram]
    exact ⟨Memory.wf_store h.ramCanonical a w, Memory.inRam_store h.ramInRange a (ramAddr_ok_le ha) w⟩

/-- An instruction whose bytes are in the image keeps the invariant. -/
theorem exec_keeps_inv (h : s.Inv) (hlen : i.length ≤ s.fetchBytes.length) (hexec : exec i s = .next t) : t.Inv := by
  have e := exec_effect hexec
  have himage : t.imageLen = s.imageLen := congrArg List.length e.image
  obtain ⟨hwf, hinRam⟩ := e.ram_canonical h
  obtain ⟨hpcLo, hpcHi⟩ := e.pc_inImage h hlen
  exact
    { ramCanonical := hwf
      ramInRange := hinRam
      imageFits := himage ▸ h.imageFits
      pcNonneg := hpcLo
      pcInImage := himage ▸ hpcHi
      returnsInImage := himage ▸ e.returns_inImage h hlen
      osBounded := e.osBounded h.osBounded
      csBounded := e.csBounded h }

/-- Taking an error past bytes that were read keeps the invariant. -/
theorem State.Inv.advance_setStatus (h : s.Inv) {n : Nat} (hn : n ≤ s.fetchBytes.length) (v : Status) :
    ((s.advance n).setStatus v).Inv := by
  obtain ⟨hadd, hle⟩ := h.toInt_pc_add hn
  have hnonneg := h.pcNonneg
  exact
    { h with
      pcNonneg := by rw [State.setStatus_pc, State.advance_pc, hadd]; omega
      pcInImage := by rw [State.setStatus_pc, State.advance_pc, hadd]; exact hle }

end Effect

end Sys2Proof.Machine

open Sys2Proof Sys2Proof.Machine

/-- Settles O52: a stopped machine keeps its state, an instruction keeps the invariant by its `ExecEffect`, and an error
at decoding moves `pc` only over bytes that were read. -/
theorem everyStepKeepsTheInvariant : Obligations.EveryStepKeepsTheInvariant := by
  intro s t h hstep
  have hread : s.decodeAtPc.bytesRead ≤ s.fetchBytes.length := decode_bytesRead_le _ _
  obtain ⟨-, rfl⟩ | ⟨-, ⟨i, hdec, hexec⟩ | ⟨e, hdec, hstop⟩⟩ := step_next.1 hstep
  · exact h
  · rw [hdec] at hread
    exact exec_keeps_inv h hread hexec
  · rw [hdec] at hread
    obtain ⟨k, rfl⟩ := decodeStop_next_advance hstop
    exact h.advance_setStatus hread _

/-- Settles O53. -/
theorem loadMeetsTheInvariant : Obligations.LoadMeetsTheInvariant := by
  have hload : ∀ (p : Params) (image : List Byte) (input : List F64), image.length ≤ 2 ^ 31 - 1 →
      (State.load p image input).Inv := fun p image input hfits =>
    { ramCanonical := Memory.wf_nil
      ramInRange := rfl
      imageFits := hfits
      pcNonneg := Int.le_refl 0
      pcInImage := Int.natCast_nonneg _
      returnsInImage := fun _ hn => nomatch hn
      osBounded := withinCap_zero _
      csBounded := withinCap_zero _ }
  exact ⟨hload, rfl, hload _ _ _ (Nat.zero_le _)⟩

end

section
/-! What no instruction but a named one changes: the frame statements, each read off `ExecEffect`. -/

open Sys2Proof Sys2Proof.Machine

/-- Settles O54. -/
theorem imageAndParametersNeverChange : Obligations.ImageAndParametersNeverChange := by
  intro s t hstep
  obtain ⟨-, rfl⟩ | ⟨-, ⟨i, -, hexec⟩ | ⟨e, -, hstop⟩⟩ := step_next.1 hstep
  · exact ⟨rfl, rfl⟩
  · have e := exec_effect hexec
    exact ⟨e.image, e.params⟩
  · obtain ⟨k, rfl⟩ := decodeStop_next_advance hstop
    exact ⟨rfl, rfl⟩

/-- Settles O56: `ExecEffect` names the one store, and a store's frame needs no canonical form. -/
theorem ramIsWrittenOnlyByTheStoreForms : Obligations.RamIsWrittenOnlyByTheStoreForms := by
  intro i s t hexec
  obtain hram | ⟨y, a, w, hy, ha, hram⟩ := (exec_effect hexec).ram
  · simp [hram]
  · refine ⟨fun hv hr => ?_, fun x hx => ?_⟩
    · obtain rfl | ⟨r, rfl, -⟩ := hy
      · exact absurd rfl (hv y)
      · exact absurd rfl (hr r)
    · obtain rfl : x = y := StoresAt.unique hx hy
      refine ⟨fun a' ha' b hb => ?_, fun hnone => absurd ha (hnone a)⟩
      obtain rfl : a = a' := RamAddr.ok.inj (ha.symm.trans ha')
      rw [hram, Memory.read_store_of_outside s.ram w hb]

/-- Settles O57. -/
theorem callStackIsChangedOnlyByCallAndRet : Obligations.CallStackIsChangedOnlyByCallAndRet := by
  intro i s t hexec
  obtain hcs | ⟨-, hcall, hcs⟩ | hret := (exec_effect hexec).cs
  · exact .inl hcs
  · exact .inr (.inl ⟨hcall, hcs⟩)
  · exact .inr (.inr hret)

end

section
/-! Runs from states that differ only in the registers. -/

namespace Sys2Proof.Machine

/-- Where `o` answers a next state, `o'` answers the same state with register contents `x`. -/
def AnswersWithRegs (x : Regs) (o o' : Out) : Prop := ∀ t, o = .next t → o' = .next (t.setRegs x)

namespace AnswersWithRegs

variable {x : Regs} {s : State}

theorem next (t : State) : AnswersWithRegs x (.next t) (.next (t.setRegs x)) := by
  rintro _ ⟨⟩
  rfl

theorem of_takeError (k : ErrorKind) : AnswersWithRegs x (takeError k s) (takeError k (s.setRegs x)) :=
  next (s.setStatus (.error k))

theorem of_stopUnspecified (r : StopReason) (o : Out) : AnswersWithRegs x (stopUnspecified r s) o :=
  fun _ h => absurd h stopUnspecified_ne_next

theorem of_pushOs (v : F64) : AnswersWithRegs x (pushOs v s) (pushOs v (s.setRegs x)) := by
  intro t h
  obtain ⟨hroom, rfl⟩ := pushOs_next.1 h
  exact pushOs_next.2 ⟨hroom, rfl⟩

theorem of_popOs {k k' : F64 → State → Out} (hk : ∀ w s', AnswersWithRegs x (k w s') (k' w (s'.setRegs x))) :
    AnswersWithRegs x (popOs s k) (popOs (s.setRegs x) k') := by
  intro t h
  obtain ⟨hempty, rfl⟩ | ⟨w, rest, hos, hnext⟩ := popOs_next.1 h
  · exact popOs_next.2 (.inl ⟨hempty, rfl⟩)
  · exact popOs_next.2 (.inr ⟨w, rest, hos, hk w _ t hnext⟩)

theorem of_pop2Os {k k' : F64 → F64 → State → Out}
    (hk : ∀ lhs rhs s', AnswersWithRegs x (k lhs rhs s') (k' lhs rhs (s'.setRegs x))) :
    AnswersWithRegs x (pop2Os s k) (pop2Os (s.setRegs x) k') := by
  intro t h
  obtain ⟨hshort, rfl⟩ | ⟨rhs, lhs, rest, hos, hnext⟩ := pop2Os_next.1 h
  · exact pop2Os_next.2 (.inl ⟨hshort, rfl⟩)
  · exact pop2Os_next.2 (.inr ⟨rhs, lhs, rest, hos, hk lhs rhs _ t hnext⟩)

theorem of_pushResult (op : ArithOp) (xs : List F64) (r : FResult) :
    AnswersWithRegs x (pushResult op xs r s) (pushResult op xs r (s.setRegs x)) := by
  intro t h
  obtain ⟨hroom, ⟨v, hv, rfl⟩ | ⟨hnan, rfl⟩⟩ := pushResult_next.1 h
  · exact pushResult_next.2 ⟨hroom, .inl ⟨v, hv, rfl⟩⟩
  · exact pushResult_next.2 ⟨hroom, .inr ⟨hnan, rfl⟩⟩

theorem of_binaryArith (op : ArithOp) (f : F64 → F64 → FResult) :
    AnswersWithRegs x (binaryArith op f s) (binaryArith op f (s.setRegs x)) :=
  of_pop2Os fun _ _ _ => of_pushResult op _ _

theorem of_withRamAddr (v : F64) {k k' : Nat → Out} (hk : ∀ a, AnswersWithRegs x (k a) (k' a)) :
    AnswersWithRegs x (withRamAddr v s k) (withRamAddr v (s.setRegs x) k') := by
  intro t h
  obtain ⟨hinvalid, rfl⟩ | ⟨a, ha, hnext⟩ := withRamAddr_next.1 h
  · exact withRamAddr_next.2 (.inl ⟨hinvalid, rfl⟩)
  · exact withRamAddr_next.2 (.inr ⟨a, ha, hk a t hnext⟩)

theorem of_pushFromRam (v : F64) : AnswersWithRegs x (pushFromRam v s) (pushFromRam v (s.setRegs x)) :=
  of_withRamAddr v fun _ => of_pushOs _

theorem of_popToRam (v : F64) : AnswersWithRegs x (popToRam v s) (popToRam v (s.setRegs x)) :=
  of_popOs fun _ _ => of_withRamAddr v fun _ => next _

theorem of_jumpTo (g : Int) : AnswersWithRegs x (jumpTo g s) (jumpTo g (s.setRegs x)) := by
  intro t h
  obtain ⟨hlegal, rfl⟩ | ⟨hillegal, rfl⟩ := jumpTo_next.1 h
  · exact jumpTo_next.2 (.inl ⟨hlegal, rfl⟩)
  · exact jumpTo_next.2 (.inr ⟨hillegal, rfl⟩)

theorem of_ite {c : Prop} [Decidable c] {o₁ o₂ o₁' o₂' : Out} (h₁ : AnswersWithRegs x o₁ o₁')
    (h₂ : AnswersWithRegs x o₂ o₂') : AnswersWithRegs x (if c then o₁ else o₂) (if c then o₁' else o₂') := by
  split
  · exact h₁
  · exact h₂

theorem of_condJump (pred : F64 → F64 → Bool) (d : W32) :
    AnswersWithRegs x (condJump pred d s) (condJump pred d (s.setRegs x)) :=
  of_pop2Os fun _ _ _ => of_ite (of_takeError _) (of_ite (of_jumpTo _) (next _))

theorem of_execIn : AnswersWithRegs x (execIn s) (execIn (s.setRegs x)) := by
  unfold execIn
  rw [State.setRegs_input, State.setRegs_inputClosed]
  split
  · exact of_pushOs _
  · exact of_ite (of_stopUnspecified _ _) (next s)

theorem of_execOut : AnswersWithRegs x (execOut s) (execOut (s.setRegs x)) :=
  of_popOs (s := s.past .n) fun w s' => next (s'.emit w)

theorem of_execDup : AnswersWithRegs x (execDup s) (execDup (s.setRegs x)) :=
  of_popOs (s := s.past .n) (k := fun w _ => pushOs w (s.past .n)) fun w _ => of_pushOs (s := s.past .n) w

theorem of_execCall (d : W32) : AnswersWithRegs x (execCall d s) (execCall d (s.setRegs x)) := by
  intro t h
  obtain ⟨hroom, hjump⟩ := pushCs_next.1 h
  exact pushCs_next.2 ⟨hroom, of_jumpTo _ t hjump⟩

theorem of_execRet : AnswersWithRegs x (execRet s) (execRet (s.setRegs x)) := by
  intro t h
  obtain ⟨hempty, rfl⟩ | ⟨n, rest, hcs, hnext⟩ := popCs_next.1 h
  · exact popCs_next.2 (.inl ⟨hempty, rfl⟩)
  · cases hnext
    exact popCs_next.2 (.inr ⟨n, rest, hcs, rfl⟩)

/-- An instruction without a register operand reads no register (spec/10_state.md R13). -/
theorem exec_of_format_ne_r {i : Instr} (hi : i.format ≠ .r) :
    AnswersWithRegs x (exec i s) (exec i (s.setRegs x)) := by
  cases i with
  | inp => exact of_execIn
  | out => exact of_execOut
  | pop => exact of_popOs fun _ _ => next _
  | popR | popAtR | pushR | pushAtR => exact absurd rfl hi
  | popAtV v => exact of_popToRam (s := s.past .i) v
  | pushV v => exact of_pushOs (s := s.past .i) v
  | pushAtV v => exact of_pushFromRam (s := s.past .i) v
  | add => exact of_binaryArith .add fadd
  | sub => exact of_binaryArith .sub fsub
  | mul => exact of_binaryArith .mul fmul
  | div => exact of_binaryArith .div fdiv
  | sqrt => exact of_popOs fun _ _ => of_pushResult _ _ _
  | dup => exact of_execDup
  | jmp d => exact of_jumpTo (s := s.past .j) _
  | jmpe d => exact of_condJump _ d
  | jmpne d => exact of_condJump _ d
  | jmpl d => exact of_condJump _ d
  | jmple d => exact of_condJump _ d
  | jmpg d => exact of_condJump _ d
  | jmpge d => exact of_condJump _ d
  | call d => exact of_execCall d
  | ret => exact of_execRet
  | hlt => exact next ((s.past .n).setStatus .halted)

/-- `PUSH R`, `PUSH [R]` and `POP [R]` read no register but their own. -/
theorem exec_of_reads {i : Instr} {r : Reg} (hi : i ∈ [Instr.pushR r, .pushAtR r, .popAtR r])
    (hx : x.read r = s.readReg r) : AnswersWithRegs x (exec i s) (exec i (s.setRegs x)) := by
  have hread : (s.setRegs x).readReg r = s.readReg r := hx
  simp only [List.mem_cons, List.not_mem_nil, or_false] at hi
  obtain rfl | rfl | rfl := hi
  · simp only [exec, execPushR, hread]
    exact of_pushOs (s := s.past .r) _
  · simp only [exec, execPushAtR, hread]
    exact of_pushFromRam (s := s.past .r) _
  · simp only [exec, execPopAtR, hread]
    exact of_popToRam (s := s.past .r) _

end AnswersWithRegs

end Sys2Proof.Machine

open Sys2Proof Sys2Proof.Machine

/-- Settles O55: the writes are read off `ExecEffect` and `exec_popR_next`, the reads off `AnswersWithRegs`. -/
theorem registersAreWrittenOnlyByPopR : Obligations.RegistersAreWrittenOnlyByPopR := by
  refine ⟨fun i s t hexec hi => ?_, fun s t r q hexec hq => ?_, fun i s t x hexec hi => ?_,
    fun s t r x i hi hx hexec => AnswersWithRegs.exec_of_reads hi hx t hexec, fun s t r x hexec => ?_⟩
  · obtain hregs | ⟨r, w, rfl, -⟩ := (exec_effect hexec).regs
    · exact hregs
    · exact absurd rfl (hi r)
  · obtain ⟨-, rfl⟩ | ⟨w, rest, -, rfl⟩ := exec_popR_next.1 hexec
    · rfl
    · exact Regs.read_write_of_ne s.regs w hq
  · have hformat : i.format ≠ .r := by
      cases i with
      | popR r | pushR r | pushAtR r | popAtR r => simpa using hi r
      | _ => nofun
    exact AnswersWithRegs.exec_of_format_ne_r hformat t hexec
  · obtain ⟨hempty, rfl⟩ | ⟨w, rest, hos, rfl⟩ := exec_popR_next.1 hexec
    · exact ⟨_, exec_popR_next.2 (.inl ⟨hempty, rfl⟩), rfl, rfl, fun h => absurd hempty h⟩
    · exact ⟨_, exec_popR_next.2 (.inr ⟨w, rest, hos, rfl⟩), rfl, rfl, fun _ => by simp [State.readReg]⟩

end

section
/-! Reset, and the machine that has stopped. -/

open Sys2Proof Sys2Proof.Machine

/-- Settles O1. -/
theorem loadGivesEveryResetValue : Obligations.LoadGivesEveryResetValue := by
  intro p image input
  have hregs : ∀ r : Reg, (State.load p image input).readReg r = 0x0000000000000000#64 := fun r => by cases r <;> rfl
  exact ⟨rfl, hregs, rfl, rfl, Memory.read_nil, rfl, rfl, rfl, rfl⟩

/-- Settles O3. -/
theorem stoppedMachineKeepsItsState : Obligations.StoppedMachineKeepsItsState :=
  fun _ hstopped => step_next.2 (.inl ⟨hstopped, rfl⟩)

end

section
/-! RAM loads and stores: the bytes of a pattern, what a store leaves in RAM, and what a load reads back. -/

namespace Sys2Proof.Machine

/-! ## The bytes of a number -/

/-- Byte `i` of a number is its digit of weight `256 ^ i` (spec/20_memory.md R36). -/
theorem getElem?_leBytes {n i : Nat} (w : Nat) (h : i < n) :
    (leBytes n w)[i]? = some (BitVec.ofNat 8 (w / 256 ^ i)) := by
  induction n generalizing w i with
  | zero => nomatch h
  | succ n ih =>
    cases i with
    | zero => simp [leBytes_succ]
    | succ i => rw [leBytes_succ, List.getElem?_cons_succ, ih _ (by omega), Nat.div_div_eq_div_mul, Nat.pow_succ']

/-- Byte `i` of a pattern is its bits `8i+7 : 8i` (spec/20_memory.md R37). -/
theorem getElem?_f64Bytes (w : F64) {i : Nat} (h : i < 8) : (f64Bytes w)[i]? = some (w.extractLsb' (8 * i) 8) := by
  rw [f64Bytes, getElem?_leBytes _ h, BitVec.extractLsb', Nat.shiftRight_eq_div_pow, Nat.pow_mul]

/-! ## Stores -/

/-- A store leaves its eight bytes in RAM and every other byte as it was (spec/20_memory.md R32). -/
theorem Memory.storedAt_store {m : Memory} (h : m.wf = true) (a : Nat) (w : F64) : StoredAt m (m.store a w) a w where
  stored i hi := by
    rw [Memory.store, Memory.read_writeBytes h, if_neg (by omega), Nat.add_sub_cancel_left, getElem?_f64Bytes w hi]
    rfl
  frame b hb := Memory.read_store_of_outside m w hb

/-! ## Loads -/

@[simp] theorem Memory.readBytes_length (m : Memory) (n a : Nat) : (m.readBytes n a).length = n := by
  induction n generalizing a with
  | zero => rfl
  | succ n ih => rw [Memory.readBytes_succ, List.length_cons, ih]

/-- A load loses nothing of its eight bytes. -/
theorem Memory.load_toNat (m : Memory) (a : Nat) : (m.load a).toNat = leNat (m.readBytes 8 a) := by
  have hlt := leNat_lt (m.readBytes 8 a)
  rw [Memory.readBytes_length] at hlt
  rw [Memory.load, f64OfBytes, BitVec.toNat_ofNat, Nat.mod_eq_of_lt (by omega)]

/-- The bytes just written are the bytes read. -/
theorem Memory.readBytes_writeBytes_same {m : Memory} (h : m.wf = true) (a : Nat) (bs : List Byte) :
    (m.writeBytes a bs).readBytes bs.length a = bs := by
  induction bs generalizing m a with
  | nil => rfl
  | cons b bs ih =>
    have hfirst : (m.writeBytes a (b :: bs)).read a = b := by rw [Memory.read_writeBytes h]; simp
    rw [List.length_cons, Memory.readBytes_succ, hfirst, Memory.writeBytes, ih (Memory.wf_write h a b)]

theorem Memory.load_store_same {m : Memory} (h : m.wf = true) (a : Nat) (w : F64) : (m.store a w).load a = w := by
  have hbytes := Memory.readBytes_writeBytes_same h a (f64Bytes w)
  rw [f64Bytes_length] at hbytes
  rw [Memory.load, Memory.store, hbytes, f64OfBytes_f64Bytes]

theorem Memory.load_store_of_disjoint (m : Memory) {a b : Nat} (w : F64) (h : a + 8 ≤ b ∨ b + 8 ≤ a) :
    (m.store a w).load b = m.load b := by
  rw [Memory.load, Memory.load,
    Memory.readBytes_congr 8 b fun c hlo hhi => Memory.read_store_of_outside m w (by omega)]

end Sys2Proof.Machine

open Sys2Proof Sys2Proof.Machine

/-- Settles O16. -/
theorem ramMovesEightBytesLittleEndian : Obligations.RamMovesEightBytesLittleEndian := by
  intro m a w hwf _
  refine ⟨?_, Memory.storedAt_store hwf a w⟩
  rw [Memory.load_toNat]
  simp only [Memory.readBytes_succ, Memory.readBytes_zero, leNat_cons, leNat_nil, Nat.add_assoc, Nat.reduceAdd]
  ring

/-- Settles O17. -/
theorem ramLoadAfterStore : Obligations.RamLoadAfterStore :=
  fun m a _ w hwf => ⟨Memory.load_store_same hwf a w, Memory.load_store_of_disjoint m w, Memory.wf_store hwf a w⟩

end

section
/-! The exact value of a pattern from its three fields, and the RAM address it stands for. -/

namespace Sys2Proof.Machine

/-! ## The value of a pattern (spec/20_memory.md R38) -/

/-- The fraction field is the low 52 bits of the magnitude. -/
theorem magnitude_mod (v : F64) : magnitude v % 2 ^ 52 = f64Frac v := by
  simp only [magnitude, f64Frac, BitVec.extractLsb'_toNat, Nat.shiftRight_zero]
  omega

/-- The exponent field is the rest of the magnitude. -/
theorem magnitude_div (v : F64) : magnitude v / 2 ^ 52 = f64Exp v := by
  simp only [magnitude, f64Exp, BitVec.extractLsb'_toNat, Nat.shiftRight_eq_div_pow]
  omega

/-- The units of a zero or subnormal pattern are its fraction. -/
theorem units_of_exp_eq_zero {v : F64} (h : f64Exp v = 0) : units v = f64Frac v := by
  rw [← magnitude_div] at h
  rw [units, magUnits, if_pos (by omega), ← magnitude_mod]
  omega

/-- The units of a normal pattern: its fraction under the hidden bit, scaled by its exponent. -/
theorem units_of_exp_ne_zero {v : F64} (h : f64Exp v ≠ 0) : units v = (2 ^ 52 + f64Frac v) * 2 ^ (f64Exp v - 1) := by
  rw [← magnitude_div] at h
  rw [units, magUnits, if_neg (by omega), magnitude_mod, magnitude_div]

theorem ratValue_eq_sign_mul (v : F64) :
    ratValue v = (if f64Sign v then -1 else 1) * ((units v : ℚ) * (2 : ℚ) ^ (-1074 : ℤ)) := by
  have hscale : (2 : ℚ) ^ (-1074 : ℤ) = (2 ^ 1074)⁻¹ := zpow_neg_coe_of_pos 2 (by decide)
  rw [ratValue, signedUnits, hscale, div_eq_mul_inv]
  split <;> simp

/-- The absolute value: a subnormal has no hidden bit; the scale `2 ^ (e - 1)` of a normal pattern and the unit
`2 ^ -1074` give `2 ^ (e - 1075)`. -/
theorem units_mul_scale (v : F64) :
    (units v : ℚ) * (2 : ℚ) ^ (-1074 : ℤ) =
      if f64Exp v = 0 then (f64Frac v : ℚ) * (2 : ℚ) ^ (-1074 : ℤ)
      else (2 ^ 52 + f64Frac v : ℚ) * (2 : ℚ) ^ ((f64Exp v : ℤ) - 1075) := by
  split
  · next hexp => rw [units_of_exp_eq_zero hexp]
  · next hexp =>
    have hshift : (f64Exp v : ℤ) - 1075 = ((f64Exp v - 1 : ℕ) : ℤ) + (-1074) := by omega
    rw [units_of_exp_ne_zero hexp, hshift, zpow_add₀ two_ne_zero, zpow_natCast, ← mul_assoc]
    simp only [Nat.cast_mul, Nat.cast_add, Nat.cast_pow, Nat.cast_ofNat]

/-! ## The RAM address of a pattern (spec/20_memory.md R33) -/

/-- The model's floor is the floor of the exact value. -/
theorem f64Floor_eq_floor (v : F64) : f64Floor v = ⌊ratValue v⌋ := by
  have hdenom : (2 ^ 1074 : ℚ) = ((2 ^ 1074 : ℕ) : ℚ) := (Nat.cast_pow 2 1074).symm
  rw [ratValue, hdenom, Rat.floor_intCast_div_natCast, f64Floor]

theorem ramAddr_of_not_finite {v : F64} (h : isFinite v = false) : ramAddr v = .invalid := by
  simp [ramAddr, h]

/-- `ram_addr` of a finite value, by the range its floor lies in. -/
theorem ramAddr_of_finite {v : F64} (h : isFinite v = true) :
    ramAddr v = if ⌊ratValue v⌋ < 0 ∨ 1024 ≤ ⌊ratValue v⌋ then .invalid
      else if 1016 < ⌊ratValue v⌋ then .overrun else .ok ⌊ratValue v⌋.toNat := by
  rw [ramAddr, if_pos h, f64Floor_eq_floor]
  rfl

end Sys2Proof.Machine

open Sys2Proof Sys2Proof.Machine

/-- Settles O19. -/
theorem valueOfAPattern : Obligations.ValueOfAPattern :=
  fun v _ => (ratValue_eq_sign_mul v).trans (congrArg _ (units_mul_scale v))

/-- Settles O18. -/
theorem ramAddressOfEveryValue : Obligations.RamAddressOfEveryValue := by
  refine ⟨fun v => ⟨ramAddr_of_not_finite, fun hfin hout => ?_, fun hfin hlo hhi => ?_, fun a hfin ha hle => ?_⟩,
    fun v s k => ⟨fun h => ?_, fun h => ?_, fun a h => ?_⟩⟩
  · rw [ramAddr_of_finite hfin, if_pos hout]
  · rw [ramAddr_of_finite hfin, if_neg (by omega), if_pos (by omega)]
  · rw [ramAddr_of_finite hfin, ha, if_neg (by omega), if_neg (by omega), Int.toNat_natCast]
  · rw [withRamAddr, h]
    rfl
  · rw [withRamAddr, h]
    rfl
  · rw [withRamAddr, h]

end

section
/-! The two ports: only `OUT` extends the output log and only `IN` takes input. -/

namespace Sys2Proof.Machine

/-- The machine's side of the ports: the output log, the pending input and the end-of-input signal
(spec/10_state.md R24). -/
def State.ports (s : State) : List F64 × List F64 × Bool := (s.output, s.input, s.inputClosed)

/-! ## Operations that leave the ports alone -/

section KeptPorts

variable {s t : State}

theorem ports_of_pushOs {v : F64} (h : pushOs v s = .next t) : t.ports = s.ports := by
  obtain ⟨-, rfl⟩ := pushOs_next.1 h
  rfl

theorem ports_of_popOs {k : F64 → State → Out} (h : popOs s k = .next t)
    (hk : ∀ w s', k w s' = .next t → s'.ports = s.ports → t.ports = s.ports) : t.ports = s.ports := by
  obtain ⟨-, rfl⟩ | ⟨w, rest, -, hnext⟩ := popOs_next.1 h
  · rfl
  · exact hk w _ hnext rfl

theorem ports_of_pushResult {op : ArithOp} {xs : List F64} {r : FResult} (h : pushResult op xs r s = .next t) :
    t.ports = s.ports := by
  obtain ⟨-, ⟨v, -, rfl⟩ | ⟨-, rfl⟩⟩ := pushResult_next.1 h <;> rfl

theorem ports_of_binaryArith {op : ArithOp} {f : F64 → F64 → FResult} (h : binaryArith op f s = .next t) :
    t.ports = (s.past .n).ports := by
  obtain ⟨-, rfl⟩ | ⟨rhs, lhs, rest, -, hpush⟩ := binaryArith_next.1 h
  · rfl
  · exact (ports_of_pushResult hpush).trans rfl

theorem ports_of_pushFromRam {v : F64} (h : pushFromRam v s = .next t) : t.ports = s.ports := by
  obtain ⟨-, rfl⟩ | ⟨a, -, -, rfl⟩ := pushFromRam_next.1 h <;> rfl

theorem ports_of_popToRam {v : F64} (h : popToRam v s = .next t) : t.ports = s.ports := by
  obtain ⟨-, rfl⟩ | ⟨w, rest, -, ⟨-, rfl⟩ | ⟨a, -, rfl⟩⟩ := popToRam_next.1 h <;> rfl

theorem ports_of_jumpTo {g : Int} (h : jumpTo g s = .next t) : t.ports = s.ports := by
  obtain ⟨-, rfl⟩ | ⟨-, rfl⟩ := jumpTo_next.1 h <;> rfl

theorem ports_of_condJump {pred : F64 → F64 → Bool} {d : W32} (h : condJump pred d s = .next t) :
    t.ports = (s.past .j).ports := by
  obtain ⟨-, rfl⟩ | ⟨rhs, lhs, rest, -, ⟨-, rfl⟩ | ⟨-, ⟨-, hjump⟩ | ⟨-, rfl⟩⟩⟩ := condJump_next.1 h
  · rfl
  · rfl
  · exact (ports_of_jumpTo hjump).trans rfl
  · rfl

theorem ports_of_popR {r : Reg} (h : exec (.popR r) s = .next t) : t.ports = (s.past .r).ports := by
  obtain ⟨-, rfl⟩ | ⟨w, rest, -, rfl⟩ := exec_popR_next.1 h <;> rfl

theorem ports_of_execCall {d : W32} (h : execCall d s = .next t) : t.ports = (s.past .j).ports := by
  obtain ⟨-, hjump⟩ := pushCs_next.1 h
  exact (ports_of_jumpTo hjump).trans rfl

theorem ports_of_execRet (h : execRet s = .next t) : t.ports = (s.past .n).ports := by
  obtain ⟨-, rfl⟩ | ⟨n, rest, -, hnext⟩ := popCs_next.1 h
  · rfl
  · cases hnext
    rfl

end KeptPorts

/-! ## The effect of each instruction on the ports -/

/-- Everything `IN` does when it answers a next state: it pushes the next value, or is blocked
(spec/44_io_and_halt.md R121; log 7). -/
theorem execIn_next {s t : State} :
    execIn s = .next t ↔
      (∃ w rest, s.input = w :: rest ∧ s.osFull = false ∧ t = ((s.past .n).setInput rest).setOs (w :: s.os)) ∨
      (s.input = [] ∧ s.inputClosed = false ∧ t = s) := by
  unfold execIn
  cases s.input with
  | nil => cases s.inputClosed <;> simp [stopUnspecified_ne_next, eq_comm (a := t)]
  | cons w rest => simp [pushOs_next, State.osFull]

/-- Everything `OUT` does when it answers a next state: it emits the top cell, or takes the underflow
(spec/44_io_and_halt.md R122). -/
theorem execOut_next {s t : State} :
    execOut s = .next t ↔
      (s.os = [] ∧ t = (s.past .n).setStatus (.error .stackUnderflow)) ∨
      ∃ w rest, s.os = w :: rest ∧ t = ((s.past .n).setOs rest).emit w := by
  simp only [execOut, popOs_next, State.past_os, Host.Outcome.next.injEq, eq_comm (b := t)]

/-- What instruction `i`, run from `s`, may have done to the ports when it answers `t`. -/
structure PortEffect (i : Instr) (s t : State) : Prop where
  output : t.output = s.output ∨ (i = .out ∧ ∃ w, t.output = s.output ++ [w])
  input : t.input = s.input ∨ (i = .inp ∧ ∃ w, s.input = w :: t.input)
  inputClosed : t.inputClosed = s.inputClosed

namespace PortEffect

variable {s t : State}

theorem of_ports {i : Instr} (h : t.ports = (s.past i.format).ports) : PortEffect i s t := by
  simp only [State.ports, Prod.mk.injEq] at h
  obtain ⟨houtput, hinput, hclosed⟩ := h
  exact ⟨.inl houtput, .inl hinput, hclosed⟩

theorem of_in (h : execIn s = .next t) : PortEffect .inp s t := by
  obtain ⟨w, rest, hinput, -, rfl⟩ | ⟨-, -, rfl⟩ := execIn_next.1 h
  · exact ⟨.inl rfl, .inr ⟨rfl, w, hinput⟩, rfl⟩
  · exact ⟨.inl rfl, .inl rfl, rfl⟩

theorem of_out (h : execOut s = .next t) : PortEffect .out s t := by
  obtain ⟨-, rfl⟩ | ⟨w, rest, -, rfl⟩ := execOut_next.1 h
  · exact of_ports rfl
  · exact ⟨.inr ⟨rfl, w, rfl⟩, .inl rfl, rfl⟩

end PortEffect

/-- `IN` and `OUT` apart, an instruction leaves the ports alone. -/
theorem exec_portEffect {i : Instr} {s t : State} (h : exec i s = .next t) : PortEffect i s t := by
  cases i with
  | inp => exact .of_in h
  | out => exact .of_out h
  | pop => exact .of_ports (ports_of_popOs h fun _ _ hk hs => by cases hk; exact hs)
  | popR r => exact .of_ports (ports_of_popR h)
  | popAtV v => exact .of_ports (ports_of_popToRam h)
  | popAtR r => exact .of_ports (ports_of_popToRam h)
  | pushV v => exact .of_ports (ports_of_pushOs h)
  | pushR r => exact .of_ports (ports_of_pushOs h)
  | pushAtV v => exact .of_ports (ports_of_pushFromRam h)
  | pushAtR r => exact .of_ports (ports_of_pushFromRam h)
  | add => exact .of_ports (ports_of_binaryArith h)
  | sub => exact .of_ports (ports_of_binaryArith h)
  | mul => exact .of_ports (ports_of_binaryArith h)
  | div => exact .of_ports (ports_of_binaryArith h)
  | sqrt => exact .of_ports (ports_of_popOs h fun _ _ hk hs => (ports_of_pushResult hk).trans hs)
  | dup => exact .of_ports (ports_of_popOs (k := fun w _ => pushOs w (s.past .n)) h fun _ _ hk _ => ports_of_pushOs hk)
  | jmp d => exact .of_ports (ports_of_jumpTo h)
  | jmpe d => exact .of_ports (ports_of_condJump h)
  | jmpne d => exact .of_ports (ports_of_condJump h)
  | jmpl d => exact .of_ports (ports_of_condJump h)
  | jmple d => exact .of_ports (ports_of_condJump h)
  | jmpg d => exact .of_ports (ports_of_condJump h)
  | jmpge d => exact .of_ports (ports_of_condJump h)
  | call d => exact .of_ports (ports_of_execCall h)
  | ret => exact .of_ports (ports_of_execRet h)
  | hlt => exact .of_ports (halt_next.1 h ▸ rfl)

end Sys2Proof.Machine

open Sys2Proof Sys2Proof.Machine

/-- Settles O46: the ports change only where an instruction is executed, as its `PortEffect` says. -/
theorem portsAreInProgramOrder : Obligations.PortsAreInProgramOrder := by
  refine ⟨fun i s t hexec => ?_, fun s t hstep => ?_⟩
  · have e := exec_portEffect hexec
    exact ⟨e.output, e.input, e.inputClosed⟩
  · obtain ⟨-, rfl⟩ | ⟨hrun, ⟨i, hdec, hexec⟩ | ⟨e, -, hstop⟩⟩ := step_next.1 hstep
    · exact ⟨.inl rfl, .inl rfl, rfl⟩
    · have e := exec_portEffect hexec
      exact ⟨e.output.imp_right fun ⟨hi, hw⟩ => ⟨hrun, hi ▸ hdec, hw⟩,
        e.input.imp_right fun ⟨hi, hw⟩ => ⟨hrun, hi ▸ hdec, hw⟩, e.inputClosed⟩
    · obtain ⟨k, rfl⟩ := decodeStop_next_advance hstop
      exact ⟨.inl rfl, .inl rfl, rfl⟩

end

section
/-! The opcode byte and the 26 forms. `Form.opcode` is the byte of a form under a table of base opcodes; `decodeOpcode` is
its inverse, so a statement about opcode bytes is one about forms. -/

namespace Sys2Proof

/-! ## The three fields of an opcode byte (spec/30_encoding.md R51) -/

section Fields

variable (t : OpcTable) (m : BaseMnemonic) (reg ram : Bool)

theorem opcodeByte_regFlag : (opcodeByte t m reg ram).getLsbD 7 = reg := by
  rw [opcodeByte, BitVec.getLsbD_append, if_neg (by decide)]
  exact BitVec.getLsbD_ofBool reg 0

theorem opcodeByte_ramFlag : (opcodeByte t m reg ram).getLsbD 6 = ram := by
  rw [opcodeByte, BitVec.getLsbD_append, if_pos (by decide), BitVec.getLsbD_append, if_neg (by decide)]
  exact BitVec.getLsbD_ofBool ram 0

theorem opcodeByte_base : (opcodeByte t m reg ram).extractLsb' 0 6 = t.code m := by
  rw [opcodeByte, BitVec.extractLsb'_append_eq_of_add_le (by decide),
    BitVec.extractLsb'_append_eq_of_add_le (by decide), BitVec.extractLsb'_eq_self]

end Fields

/-- A byte has no bits but those of the three fields. -/
theorem byte_eq_of_fields {a b : Byte} (hreg : a.getLsbD 7 = b.getLsbD 7) (hram : a.getLsbD 6 = b.getLsbD 6)
    (hbase : a.extractLsb' 0 6 = b.extractLsb' 0 6) : a = b := by
  apply BitVec.eq_of_getLsbD_eq
  intro k hk
  obtain hk | rfl | rfl : k < 6 ∨ k = 6 ∨ k = 7 := by omega
  · simpa [hk] using congrArg (·.getLsbD k) hbase
  · exact hram
  · exact hreg

/-! ## Looking up a base opcode -/

theorem mem_allMnemonics (m : BaseMnemonic) : m ∈ allMnemonics := by cases m <;> decide

theorem OpcTable.code_of_lookup {t : OpcTable} {b : BitVec 6} {m : BaseMnemonic} (h : t.lookup b = some m) :
    t.code m = b := by
  simpa using List.find?_some h

theorem OpcTable.legal_iff {t : OpcTable} :
    t.legal = true ↔ (allMnemonics.map t.code).Nodup ∧ t.push ≠ 0x3F ∧ t.pop ≠ 0x3F := by
  simp [OpcTable.legal, and_assoc]

theorem OpcTable.code_injective {t : OpcTable} (ht : t.legal = true) {m m' : BaseMnemonic} (h : t.code m = t.code m') :
    m = m' := by
  obtain ⟨hnodup, -, -⟩ := OpcTable.legal_iff.1 ht
  exact List.inj_on_of_nodup_map hnodup (mem_allMnemonics m) (mem_allMnemonics m') h

/-- Where no two mnemonics share a base opcode, each is found by its own. -/
theorem OpcTable.lookup_code {t : OpcTable} (ht : t.legal = true) (m : BaseMnemonic) : t.lookup (t.code m) = some m := by
  cases hfound : t.lookup (t.code m) with
  | none =>
    have hnone := List.find?_eq_none.1 hfound m (mem_allMnemonics m)
    simp at hnone
  | some m' => rw [OpcTable.code_injective ht (OpcTable.code_of_lookup hfound)]

/-! ## The fields of a form -/

/-- The base mnemonic of a form (spec/30_encoding.md R59). -/
def Form.mnemonic : Form → BaseMnemonic
  | .n .inp => .inp
  | .n .out => .out
  | .n .pop | .r .popR | .i .popAtV | .r .popAtR => .pop
  | .i .pushV | .r .pushR | .i .pushAtV | .r .pushAtR => .push
  | .n .add => .add
  | .n .sub => .sub
  | .n .mul => .mul
  | .n .div => .div
  | .n .sqrt => .sqrt
  | .n .dup => .dup
  | .n .ret => .ret
  | .n .hlt => .hlt
  | .j .jmp => .jmp
  | .j .jmpe => .jmpe
  | .j .jmpne => .jmpne
  | .j .jmpl => .jmpl
  | .j .jmple => .jmple
  | .j .jmpg => .jmpg
  | .j .jmpge => .jmpge
  | .j .call => .call

/-- `REG_FLAG` of a form: it takes a register index (spec/30_encoding.md R51). -/
def Form.regFlag (f : Form) : Bool := f.format == .r

/-- `RAM_FLAG` of a form: its operand is a RAM address (spec/30_encoding.md R51). -/
def Form.ramFlag (f : Form) : Bool := f ∈ [Form.i .pushAtV, .r .pushAtR, .i .popAtV, .r .popAtR]

/-- The table of valid combinations is the table of each form's own fields (spec/30_encoding.md R58, R59). -/
theorem formOf_eq_some_iff {m : BaseMnemonic} {reg ram : Bool} {f : Form} :
    formOf m reg ram = some f ↔ f.mnemonic = m ∧ f.regFlag = reg ∧ f.ramFlag = ram := by
  constructor
  · intro h
    unfold formOf at h
    split at h <;> cases h <;> exact ⟨rfl, rfl, rfl⟩
  · rintro ⟨rfl, rfl, rfl⟩
    rcases f with f | f | f | f <;> cases f <;> rfl

/-! ## The opcode byte of a form -/

/-- The opcode byte of a form under a table of base opcodes (spec/30_encoding.md R51, R59). -/
def Form.opcode (t : OpcTable) (f : Form) : Byte := opcodeByte t f.mnemonic f.regFlag f.ramFlag

theorem Form.opcode_regFlag (t : OpcTable) (f : Form) : (f.opcode t).getLsbD 7 = f.regFlag := opcodeByte_regFlag ..

theorem Form.opcode_ramFlag (t : OpcTable) (f : Form) : (f.opcode t).getLsbD 6 = f.ramFlag := opcodeByte_ramFlag ..

theorem Form.opcode_base (t : OpcTable) (f : Form) : (f.opcode t).extractLsb' 0 6 = t.code f.mnemonic :=
  opcodeByte_base ..

/-- Under every table, a byte that names a form is that form's opcode byte. -/
theorem opcode_of_decodeOpcode {t : OpcTable} {op : Byte} {f : Form} (h : decodeOpcode t op = some f) :
    op = f.opcode t := by
  unfold decodeOpcode at h
  split at h
  · cases h
  · next m hlookup =>
    obtain ⟨rfl, hreg, hram⟩ := formOf_eq_some_iff.1 h
    refine byte_eq_of_fields ?_ ?_ ?_
    · rw [f.opcode_regFlag, hreg]
    · rw [f.opcode_ramFlag, hram]
    · rw [f.opcode_base, OpcTable.code_of_lookup hlookup]

section LegalTable

variable {t : OpcTable} (ht : t.legal = true)
include ht

theorem decodeOpcode_opcode (f : Form) : decodeOpcode t (f.opcode t) = some f := by
  simp only [decodeOpcode, Form.opcode_base, Form.opcode_regFlag, Form.opcode_ramFlag, OpcTable.lookup_code ht]
  exact formOf_eq_some_iff.2 ⟨rfl, rfl, rfl⟩

theorem decodeOpcode_eq_some_iff {op : Byte} {f : Form} : decodeOpcode t op = some f ↔ op = f.opcode t := by
  refine ⟨opcode_of_decodeOpcode, ?_⟩
  rintro rfl
  exact decodeOpcode_opcode ht f

theorem Form.opcode_injective : Function.Injective (Form.opcode t) := by
  intro f g h
  have hsome : some f = some g := by rw [← decodeOpcode_opcode ht f, h, decodeOpcode_opcode ht g]
  exact Option.some.inj hsome

end LegalTable

/-! ## The list of all forms -/

/-- The 26 forms in the order of spec/30_encoding.md R59. -/
def allForms : List Form :=
  [.n .inp, .n .out, .n .pop, .r .popR, .i .popAtV, .r .popAtR, .i .pushV, .r .pushR, .i .pushAtV, .r .pushAtR, .n .add,
    .n .sub, .n .mul, .n .div, .n .sqrt, .n .dup, .j .jmp, .j .jmpe, .j .jmpne, .j .jmpl, .j .jmple, .j .jmpg,
    .j .jmpge, .j .call, .n .ret, .n .hlt]

theorem mem_allForms (f : Form) : f ∈ allForms := by rcases f with f | f | f | f <;> cases f <;> decide

theorem allForms_nodup : allForms.Nodup := by decide

/-- The opcode bytes that name a form, under every legal table. -/
theorem isSome_decodeOpcode_iff {t : OpcTable} (ht : t.legal = true) {op : Byte} :
    (decodeOpcode t op).isSome = true ↔ op ∈ allForms.map (Form.opcode t) := by
  simp only [Option.isSome_iff_exists, decodeOpcode_eq_some_iff ht, List.mem_map]
  exact ⟨fun ⟨f, hop⟩ => ⟨f, mem_allForms f, hop.symm⟩, fun ⟨f, _, hop⟩ => ⟨f, hop.symm⟩⟩

end Sys2Proof

open Sys2Proof Sys2Proof.Machine

/-- Settles O12: the fields of `Form.opcode` are those the form says. -/
theorem opcodeByteHasThreeFields : Obligations.OpcodeByteHasThreeFields := by
  refine ⟨fun t m reg ram => ⟨opcodeByte_regFlag t m reg ram, opcodeByte_ramFlag t m reg ram,
    opcodeByte_base t m reg ram⟩, fun t op => ?_, fun t op f hform => ?_, rfl⟩
  · unfold decodeOpcode
    cases t.lookup (op.extractLsb' 0 6) <;> rfl
  · rw [opcode_of_decodeOpcode hform, f.opcode_regFlag, f.opcode_ramFlag]
    exact ⟨beq_iff_eq, decide_eq_true_iff⟩

/-- Settles O13: the valid bytes are the opcode bytes of the 26 forms, which are pairwise distinct. -/
theorem twentySixOpcodeBytesAreValid : Obligations.TwentySixOpcodeBytesAreValid := by
  intro t ht
  have hnodup : (allForms.map fun f => (f.opcode t).toNat).Nodup :=
    allForms_nodup.map fun f g h => Form.opcode_injective ht (BitVec.eq_of_toNat_eq h)
  have hperm : ((List.range 256).filter fun b => (decodeOpcode t (BitVec.ofNat 8 b)).isSome).Perm
      (allForms.map fun f => (f.opcode t).toNat) := by
    refine (List.perm_ext_iff_of_nodup (List.nodup_range.filter _) hnodup).2 fun b => ?_
    rw [List.mem_filter, List.mem_range, isSome_decodeOpcode_iff ht, List.mem_map, List.mem_map]
    constructor
    · rintro ⟨hb, f, hf, hop⟩
      exact ⟨f, hf, by rw [hop, BitVec.toNat_ofNat, Nat.mod_eq_of_lt hb]⟩
    · rintro ⟨f, hf, rfl⟩
      exact ⟨(f.opcode t).isLt, f, hf, by simp⟩
  rw [hperm.length_eq, List.length_map]
  rfl

end

section
/-! Decoding and encoding are inverse. An instruction is a form with its operand, its encoding the form's opcode byte with
the operand's bytes, so both directions come down to operand read on one operand of each format. -/

namespace Sys2Proof

open Machine

/-! ## Instructions by form -/

/-- Every instruction is one of the forms with an operand of its format (spec/30_encoding.md R52, R53). -/
theorem Instr.byForm {motive : Instr → Prop} (n : ∀ f : NForm, motive f.instr)
    (r : ∀ (f : RForm) (x : Reg), motive (f.instr x)) (i : ∀ (f : IForm) (v : F64), motive (f.instr v))
    (j : ∀ (f : JForm) (d : W32), motive (f.instr d)) (instr : Instr) : motive instr := by
  cases instr with
  | inp => exact n .inp
  | out => exact n .out
  | pop => exact n .pop
  | popR x => exact r .popR x
  | popAtV v => exact i .popAtV v
  | popAtR x => exact r .popAtR x
  | pushV v => exact i .pushV v
  | pushR x => exact r .pushR x
  | pushAtV v => exact i .pushAtV v
  | pushAtR x => exact r .pushAtR x
  | add => exact n .add
  | sub => exact n .sub
  | mul => exact n .mul
  | div => exact n .div
  | sqrt => exact n .sqrt
  | dup => exact n .dup
  | jmp d => exact j .jmp d
  | jmpe d => exact j .jmpe d
  | jmpne d => exact j .jmpne d
  | jmpl d => exact j .jmpl d
  | jmple d => exact j .jmple d
  | jmpg d => exact j .jmpg d
  | jmpge d => exact j .jmpge d
  | call d => exact j .call d
  | ret => exact n .ret
  | hlt => exact n .hlt

@[simp] theorem NForm.instr_wellFormed (f : NForm) : f.instr.wellFormed = true := by cases f <;> rfl
@[simp] theorem RForm.instr_wellFormed (f : RForm) (r : Reg) : (f.instr r).wellFormed = true := by cases f <;> rfl
@[simp] theorem IForm.instr_wellFormed (f : IForm) (v : F64) : (f.instr v).wellFormed = isFinite v := by cases f <;> rfl
@[simp] theorem JForm.instr_wellFormed (f : JForm) (d : W32) : (f.instr d).wellFormed = true := by cases f <;> rfl

theorem NForm.encode_instr (t : OpcTable) (f : NForm) : encode t f.instr = [(Form.n f).opcode t] := by cases f <;> rfl

theorem RForm.encode_instr (t : OpcTable) (f : RForm) (r : Reg) :
    encode t (f.instr r) = [(Form.r f).opcode t, r.toByte] := by
  cases f <;> rfl

theorem IForm.encode_instr (t : OpcTable) (f : IForm) (v : F64) :
    encode t (f.instr v) = (Form.i f).opcode t :: f64Bytes v := by
  cases f <;> rfl

theorem JForm.encode_instr (t : OpcTable) (f : JForm) (d : W32) :
    encode t (f.instr d) = (Form.j f).opcode t :: w32Bytes d := by
  cases f <;> rfl

/-! ## Operand read, per format (spec/40_fetch_decode.md R73) -/

/-- A register byte indexes the register file (spec/30_encoding.md R54; spec/10_state.md R12). -/
theorem Reg.ofByte_eq_getElem? (b : Byte) : Reg.ofByte b = [Reg.ax, .bx, .cx, .dx][b.toNat]? := by
  unfold Reg.ofByte
  rcases b.toNat with _ | _ | _ | _ | n <;> rfl

@[simp] theorem Reg.ofByte_toByte (r : Reg) : Reg.ofByte r.toByte = some r := by cases r <;> rfl

theorem Reg.toByte_of_ofByte {b : Byte} {r : Reg} (h : Reg.ofByte b = some r) : b = r.toByte := by
  apply BitVec.eq_of_toNat_eq
  unfold Reg.ofByte at h
  split at h <;> cases h <;> assumption

theorem readOperand_r_some {f : RForm} {b : Byte} {r : Reg} (bs : List Byte) (h : Reg.ofByte b = some r) :
    readOperand (.r f) (b :: bs) = .instr (f.instr r) := by
  rw [readOperand, h]

theorem readOperand_r_none {f : RForm} {b : Byte} (bs : List Byte) (h : Reg.ofByte b = none) :
    readOperand (.r f) (b :: bs) = .bad .invalidRegister := by
  rw [readOperand, h]

theorem readOperand_i {f : IForm} {bytes : List Byte} (rest : List Byte) (h : bytes.length = 8) :
    readOperand (.i f) (bytes ++ rest) =
      if isFinite (f64OfBytes bytes) then .instr (f.instr (f64OfBytes bytes)) else .bad .nonFiniteImmediate :=
  match bytes, h with
  | [_, _, _, _, _, _, _, _], _ => rfl

theorem readOperand_j {f : JForm} {bytes : List Byte} (rest : List Byte) (h : bytes.length = 4) :
    readOperand (.j f) (bytes ++ rest) = .instr (f.instr (w32OfBytes bytes)) :=
  match bytes, h with
  | [_, _, _, _], _ => rfl

/-- Operand read takes exactly the bytes that the instruction's encoding has after its opcode byte. -/
theorem encode_of_readOperand (t : OpcTable) {f : Form} {bs : List Byte} {i : Instr} (h : readOperand f bs = .instr i) :
    i.wellFormed = true ∧ ∃ rest, f.opcode t :: bs = encode t i ++ rest := by
  unfold readOperand at h
  split at h
  case h_1 f =>
    cases h
    exact ⟨f.instr_wellFormed, bs, by rw [f.encode_instr]; rfl⟩
  case h_2 f b rest =>
    split at h
    · next r hr =>
      cases h
      exact ⟨f.instr_wellFormed r, rest, by rw [f.encode_instr, Reg.toByte_of_ofByte hr]; rfl⟩
    · cases h
  case h_3 f b0 b1 b2 b3 rest =>
    cases h
    exact ⟨f.instr_wellFormed _, rest, by rw [f.encode_instr, w32Bytes_w32OfBytes _ rfl]; rfl⟩
  case h_4 f b0 b1 b2 b3 b4 b5 b6 b7 rest =>
    dsimp only at h
    split at h
    · next hfinite =>
      cases h
      exact ⟨(f.instr_wellFormed _).trans hfinite, rest, by rw [f.encode_instr, f64Bytes_f64OfBytes _ rfl]; rfl⟩
    · cases h
  case h_5 => cases h

/-! ## Decoding -/

theorem decode_cons_of_form {t : OpcTable} {op : Byte} {f : Form} (h : decodeOpcode t op = some f) (bs : List Byte) :
    decode t (op :: bs) = readOperand f bs := by
  rw [decode, h]

theorem decode_cons_of_illegal {t : OpcTable} {op : Byte} (h : decodeOpcode t op = none) (bs : List Byte) :
    decode t (op :: bs) = .bad .invalidOpcode := by
  rw [decode, h]

theorem decode_opcode_cons {t : OpcTable} (ht : t.legal = true) (f : Form) (bs : List Byte) :
    decode t (f.opcode t :: bs) = readOperand f bs :=
  decode_cons_of_form (decodeOpcode_opcode ht f) bs

theorem decode_encode {t : OpcTable} (ht : t.legal = true) {i : Instr} (hi : i.wellFormed = true) (rest : List Byte) :
    decode t (encode t i ++ rest) = .instr i := by
  cases i using Instr.byForm with
  | n f => rw [f.encode_instr, List.singleton_append, decode_opcode_cons ht, readOperand]
  | r f x =>
    rw [f.encode_instr, List.cons_append, decode_opcode_cons ht, List.singleton_append,
      readOperand_r_some rest (Reg.ofByte_toByte x)]
  | i f v =>
    rw [f.instr_wellFormed] at hi
    rw [f.encode_instr, List.cons_append, decode_opcode_cons ht, readOperand_i rest (f64Bytes_length v),
      f64OfBytes_f64Bytes, if_pos hi]
  | j f d =>
    rw [f.encode_instr, List.cons_append, decode_opcode_cons ht, readOperand_j rest (w32Bytes_length d),
      w32OfBytes_w32Bytes]

/-- Under every table, legal or not, bytes that decode to an instruction begin with its encoding. -/
theorem encode_of_decode {t : OpcTable} {bytes : List Byte} {i : Instr} (h : decode t bytes = .instr i) :
    i.wellFormed = true ∧ ∃ rest, bytes = encode t i ++ rest := by
  cases bytes with
  | nil => cases h
  | cons op bs =>
    cases hop : decodeOpcode t op with
    | none => rw [decode_cons_of_illegal hop] at h; cases h
    | some f =>
      rw [decode_cons_of_form hop] at h
      rw [opcode_of_decodeOpcode hop]
      exact encode_of_readOperand t h

theorem OpcTable.default_legal : OpcTable.default.legal = true := by decide

end Sys2Proof

open Sys2Proof Sys2Proof.Machine

/-- Settles O10. -/
theorem decodeInvertsEncode : Obligations.DecodeInvertsEncode :=
  fun _ _ rest ht hi => decode_encode ht hi rest

/-- Settles O11. -/
theorem encodeInvertsDecode : Obligations.EncodeInvertsDecode :=
  fun _ _ _ h => encode_of_decode h

/-- Settles O14: each legal word is the encoding of the instruction it stands for. -/
theorem specWordsDecode : Obligations.SpecWordsDecode := by
  have hdecode (i : Instr) (hi : i.wellFormed = true) :
      decode OpcTable.default (encode OpcTable.default i ++ []) = .instr i :=
    decode_encode OpcTable.default_legal hi []
  exact ⟨hdecode (.pushR .bx) rfl, hdecode (.popAtR .dx) rfl, hdecode (.pushV 0x4000000000000000) rfl,
    hdecode (.popAtV 0x4030000000000000) rfl, hdecode (.jmp 0xFFFFFFFD) rfl, hdecode .inp rfl, hdecode .add rfl,
    hdecode .hlt rfl, rfl, rfl⟩

end

section
/-! What a running machine's step does with the bytes at `pc`: which opcode bytes are illegal, and how each operand is
checked when it is read. -/

namespace Sys2Proof

open Machine

/-! ## Illegal opcode bytes (spec/30_encoding.md R60) -/

theorem decodeOpcode_eq_none_iff {t : OpcTable} (ht : t.legal = true) {op : Byte} :
    decodeOpcode t op = none ↔ op ∉ allForms.map (Form.opcode t) := by
  rw [← isSome_decodeOpcode_iff ht, Option.isSome_iff_ne_none, not_not]

theorem Form.mnemonic_of_ramFlag {f : Form} (h : f.ramFlag = true) : f.mnemonic = .push ∨ f.mnemonic = .pop := by
  have hmem := of_decide_eq_true h
  simp only [List.mem_cons, List.not_mem_nil, or_false] at hmem
  obtain rfl | rfl | rfl | rfl := hmem <;> decide

/-- With `RAM_FLAG` set a byte can only name a form of `PUSH` or `POP`, and their base opcodes are not `0x3F`
(spec/30_encoding.md R57). -/
theorem decodeOpcode_allOnes {t : OpcTable} (ht : t.legal = true) : decodeOpcode t 0xFF = none := by
  obtain ⟨-, hpush, hpop⟩ := OpcTable.legal_iff.1 ht
  rw [Option.eq_none_iff_forall_ne_some]
  intro f hform
  have hop : f.opcode t = 0xFF := (opcode_of_decodeOpcode hform).symm
  have hram : f.ramFlag = true := by rw [← f.opcode_ramFlag t, hop]; rfl
  have hbase : t.code f.mnemonic = 0x3F := by rw [← f.opcode_base t, hop]; rfl
  obtain hm | hm := Form.mnemonic_of_ramFlag hram <;> rw [hm] at hbase
  · exact hpush hbase
  · exact hpop hbase

/-- The valid opcode bytes of the default table (spec/30_encoding.md R59). -/
theorem allForms_opcode_default : allForms.map (Form.opcode OpcTable.default) =
    [0x00#8, 0x01#8, 0x02#8, 0x82#8, 0x42#8, 0xC2#8, 0x03#8, 0x83#8, 0x43#8, 0xC3#8, 0x04#8, 0x05#8, 0x06#8, 0x07#8,
      0x08#8, 0x09#8, 0x0A#8, 0x0B#8, 0x0C#8, 0x0D#8, 0x0E#8, 0x0F#8, 0x10#8, 0x11#8, 0x12#8, 0x13#8] := by
  decide

end Sys2Proof

namespace Sys2Proof.Machine

/-! ## Operands as numbers -/

theorem isFinite_iff {v : F64} : isFinite v = true ↔ v.extractLsb' 52 11 ≠ 0x7FF := by
  rw [isFinite, f64Exp, bne_iff_ne, ne_eq, ne_eq, BitVec.toNat_eq]
  rfl

theorem f64OfBytes_eq_of_toNat {v : F64} {bytes : List Byte} (h : v.toNat = leNat bytes) : f64OfBytes bytes = v := by
  rw [f64OfBytes, ← h, BitVec.ofNat_toNat, BitVec.setWidth_eq]

/-- The two's complement reading of four bytes (spec/30_encoding.md R56). -/
theorem toInt_w32OfBytes {bytes : List Byte} (h : bytes.length = 4) :
    (w32OfBytes bytes).toInt = if leNat bytes < 2 ^ 31 then (leNat bytes : Int) else (leNat bytes : Int) - 2 ^ 32 := by
  have hlt := leNat_lt bytes
  rw [h] at hlt
  rw [BitVec.toInt_eq_toNat_cond, w32OfBytes, BitVec.toNat_ofNat, Nat.mod_eq_of_lt (by omega)]
  split <;> split <;> omega

/-! ## A running machine's step -/

section Step

variable {s : State} (hrun : s.status = .running)
include hrun

theorem step_of_instr {i : Instr} (h : s.decodeAtPc = .instr i) : step s = exec i s := by
  rw [step, hrun, h]

theorem step_of_bad {e : DecodeError} (h : s.decodeAtPc = .bad e) : step s = decodeStop e s := by
  rw [step, hrun, h]

end Step

theorem State.decodeAtPc_of_form {s : State} {op : Byte} {bs : List Byte} {f : Form} (hbytes : s.fetchBytes = op :: bs)
    (hform : decodeOpcode s.params.opc op = some f) : s.decodeAtPc = readOperand f bs := by
  rw [State.decodeAtPc, hbytes, decode_cons_of_form hform]

theorem State.decodeAtPc_of_illegal {s : State} {op : Byte} {bs : List Byte} (hbytes : s.fetchBytes = op :: bs)
    (hillegal : decodeOpcode s.params.opc op = none) : s.decodeAtPc = .bad .invalidOpcode := by
  rw [State.decodeAtPc, hbytes, decode_cons_of_illegal hillegal]

end Sys2Proof.Machine

open Sys2Proof Sys2Proof.Machine

/-- Settles O6. -/
theorem illegalOpcodeByteIsInvalidOperation : Obligations.IllegalOpcodeByteIsInvalidOperation := by
  refine ⟨fun s op rest hrun hbytes hillegal => step_of_bad hrun (s.decodeAtPc_of_illegal hbytes hillegal),
    fun op => ?_, fun t ht => decodeOpcode_allOnes ht⟩
  rw [decodeOpcode_eq_none_iff OpcTable.default_legal, allForms_opcode_default]
  simp only [List.mem_cons, List.not_mem_nil, or_false, BitVec.toNat_eq, BitVec.toNat_ofNat]
  omega

/-- Settles O7. -/
theorem registerByteIsCheckedAtOperandRead : Obligations.RegisterByteIsCheckedAtOperandRead := by
  intro s op b rest f hrun hbytes hform
  have hdecode := s.decodeAtPc_of_form hbytes hform
  constructor
  · intro hb
    have hnone : Reg.ofByte b = none := by
      rw [Reg.ofByte_eq_getElem?]
      exact List.getElem?_eq_none hb
    exact step_of_bad hrun (hdecode.trans (readOperand_r_none rest hnone))
  · intro r hr
    rw [← Reg.ofByte_eq_getElem?] at hr
    exact step_of_instr hrun (hdecode.trans (readOperand_r_some rest hr))

/-- Settles O8. -/
theorem immediateMustBeFinite : Obligations.ImmediateMustBeFinite := by
  intro s op bytes rest f v hrun hlength hbytes hform hv
  have hdecode := (s.decodeAtPc_of_form hbytes hform).trans (readOperand_i rest hlength)
  rw [f64OfBytes_eq_of_toNat hv] at hdecode
  constructor
  · intro hexp
    rw [if_neg (fun hfinite => isFinite_iff.1 hfinite hexp)] at hdecode
    exact step_of_bad hrun hdecode
  · intro hexp
    rw [if_pos (isFinite_iff.2 hexp)] at hdecode
    exact step_of_instr hrun hdecode

/-- Settles O9. -/
theorem jumpOperandIsSignedLittleEndian : Obligations.JumpOperandIsSignedLittleEndian := by
  intro s op bytes rest f hrun hlength hbytes hform
  have hdecode := (s.decodeAtPc_of_form hbytes hform).trans (readOperand_j rest hlength)
  exact ⟨w32OfBytes bytes, step_of_instr hrun hdecode, toInt_w32OfBytes hlength⟩

end

section
/-! The delta convention of the assembler, and where an instruction can stop without a next state. -/

namespace Sys2Proof.Machine

/-! ## Deltas (spec/30_encoding.md R68) -/

/-- A delta whose exact value has 32 bits reaches the target it was made for. -/
theorem jumpTarget_deltaTo {a : W32} {target : Int} (hlo : -2 ^ 31 ≤ target - a.toInt - 1)
    (hhi : target - a.toInt - 1 < 2 ^ 31) : jumpTarget a (deltaTo a.toInt target) = target := by
  rw [jumpTarget, deltaTo, BitVec.toInt_ofInt_eq_self (by decide) hlo hhi]
  omega

/-! ## Outcomes with no next state -/

/-- The outcome is no refusal, and where it is a fault, it is the stop of a reason that `may` allows, with the state
frozen in that stop (spec/60_exceptions.md R136). -/
def StopsOnlyFor (may : StopReason → Prop) : Out → Prop
  | .next _ => True
  | .fault f => ∃ r u, may r ∧ f = r.fault u ∧ u.status = .unspecified r
  | .refused _ => False

theorem cap_ne_none_of_stackFull {cap : Option Nat} {d : Nat} (h : stackFull cap d = true) : cap ≠ none := by
  rintro rfl
  cases h

namespace StopsOnlyFor

section Operations

variable {may : StopReason → Prop} {s : State}

theorem ne_refused {o : Out} (h : StopsOnlyFor may o) (r : Refusal) : o ≠ .refused r := by
  rintro rfl
  exact h

theorem mono {may' : StopReason → Prop} {o : Out} (h : StopsOnlyFor may o) (himp : ∀ r, may r → may' r) :
    StopsOnlyFor may' o := by
  cases o with
  | next t => trivial
  | fault f =>
    obtain ⟨r, u, hr, hf, hu⟩ := h
    exact ⟨r, u, himp r hr, hf, hu⟩
  | refused r => exact h

theorem of_takeError (k : ErrorKind) : StopsOnlyFor may (takeError k s) := trivial

theorem of_stopUnspecified {r : StopReason} (h : may r) : StopsOnlyFor may (stopUnspecified r s) := ⟨r, _, h, rfl, rfl⟩

theorem of_ite {c : Prop} [Decidable c] {o₁ o₂ : Out} (h₁ : c → StopsOnlyFor may o₁)
    (h₂ : ¬c → StopsOnlyFor may o₂) : StopsOnlyFor may (if c then o₁ else o₂) := by
  split
  · next h => exact h₁ h
  · next h => exact h₂ h

theorem of_pushOs {v : F64} (hcap : s.params.ostackCap ≠ none → may .stackOverflow) : StopsOnlyFor may (pushOs v s) :=
  of_ite (fun hfull => of_stopUnspecified (hcap (cap_ne_none_of_stackFull hfull))) fun _ => trivial

theorem of_pushCs {n : W32} {k : State → Out} (hcap : s.params.cstackCap ≠ none → may .stackOverflow)
    (hk : StopsOnlyFor may (k (s.setCs (n :: s.cs)))) : StopsOnlyFor may (pushCs n s k) :=
  of_ite (fun hfull => of_stopUnspecified (hcap (cap_ne_none_of_stackFull hfull))) fun _ => hk

theorem of_pushResult {op : ArithOp} {xs : List F64} {r : FResult}
    (hcap : s.params.ostackCap ≠ none → may .stackOverflow) : StopsOnlyFor may (pushResult op xs r s) := by
  cases r with
  | value v => exact of_pushOs hcap
  | nan => exact of_pushOs hcap

theorem of_popOs {k : F64 → State → Out} (hk : ∀ w rest, StopsOnlyFor may (k w (s.setOs rest))) :
    StopsOnlyFor may (popOs s k) := by
  unfold popOs
  split
  · exact of_takeError _
  · exact hk _ _

theorem of_pop2Os {k : F64 → F64 → State → Out} (hk : ∀ lhs rhs rest, StopsOnlyFor may (k lhs rhs (s.setOs rest))) :
    StopsOnlyFor may (pop2Os s k) := by
  unfold pop2Os
  split
  · exact hk _ _ _
  · exact of_takeError _
  · exact of_takeError _

theorem of_popCs {k : W32 → State → Out} (hk : ∀ n rest, StopsOnlyFor may (k n (s.setCs rest))) :
    StopsOnlyFor may (popCs s k) := by
  unfold popCs
  split
  · exact of_takeError _
  · exact hk _ _

theorem of_withRamAddr {v : F64} {k : Nat → Out} (hram : ramAddr v = .overrun → may .ramOverrun)
    (hk : ∀ a, StopsOnlyFor may (k a)) : StopsOnlyFor may (withRamAddr v s k) := by
  unfold withRamAddr
  split
  · exact hk _
  · exact of_takeError _
  · next hover => exact of_stopUnspecified (hram hover)

theorem of_jumpTo (g : Int) : StopsOnlyFor may (jumpTo g s) := of_ite (fun _ => trivial) fun _ => of_takeError _

theorem of_condJump (pred : F64 → F64 → Bool) (d : W32) : StopsOnlyFor may (condJump pred d s) :=
  of_pop2Os fun _ _ _ => of_ite (fun _ => of_takeError _) fun _ => of_ite (fun _ => of_jumpTo _) fun _ => trivial

theorem of_binaryArith {op : ArithOp} {f : F64 → F64 → FResult}
    (hcap : s.params.ostackCap ≠ none → may .stackOverflow) : StopsOnlyFor may (binaryArith op f s) :=
  of_pop2Os fun _ _ _ => of_pushResult hcap

theorem of_pushFromRam {v : F64} (hcap : s.params.ostackCap ≠ none → may .stackOverflow)
    (hram : ramAddr v = .overrun → may .ramOverrun) : StopsOnlyFor may (pushFromRam v s) :=
  of_withRamAddr hram fun _ => of_pushOs hcap

theorem of_popToRam {v : F64} (hram : ramAddr v = .overrun → may .ramOverrun) : StopsOnlyFor may (popToRam v s) :=
  of_popOs fun _ _ => of_withRamAddr hram fun _ => trivial

theorem of_execIn (hcap : s.params.ostackCap ≠ none → may .stackOverflow)
    (hinput : s.input = [] → s.inputClosed = true → may .inputUnavailable) : StopsOnlyFor may (execIn s) := by
  unfold execIn
  split
  · exact of_pushOs hcap
  · next hempty => exact of_ite (fun hclosed => of_stopUnspecified (hinput hempty hclosed)) fun _ => trivial

theorem of_decodeStop (e : DecodeError) : StopsOnlyFor (· = .fetchBeyondImage) (decodeStop e s) := by
  cases e with
  | opcodeBeyondImage => exact of_stopUnspecified rfl
  | invalidOpcode => exact of_takeError _
  | operandBeyondImage => exact of_stopUnspecified rfl
  | invalidRegister => exact of_takeError _
  | nonFiniteImmediate => exact of_takeError _

end Operations

end StopsOnlyFor

/-- What instruction `i`, run from `s`, can stop for: an address in `1017..1023`, a finite stack capacity, or an input
port that is closed and empty (spec/60_exceptions.md R136). -/
def StopCause (i : Instr) (s : State) : StopReason → Prop
  | .fetchBeyondImage => False
  | .ramOverrun => (∃ v, (i = .pushAtV v ∨ i = .popAtV v) ∧ ramAddr v = .overrun) ∨
      ∃ r, (i = .pushAtR r ∨ i = .popAtR r) ∧ ramAddr (s.readReg r) = .overrun
  | .stackOverflow => s.params.ostackCap ≠ none ∨ s.params.cstackCap ≠ none
  | .inputUnavailable => i = .inp ∧ s.input = [] ∧ s.inputClosed = true

open StopsOnlyFor in
/-- No instruction is refused, and each stops only for its causes. -/
theorem exec_stopsOnlyFor (i : Instr) (s : State) : StopsOnlyFor (StopCause i s) (exec i s) := by
  have hos : s.params.ostackCap ≠ none → StopCause i s .stackOverflow := .inl
  have hcs : s.params.cstackCap ≠ none → StopCause i s .stackOverflow := .inr
  cases i with
  | inp => exact of_execIn hos fun hempty hclosed => ⟨rfl, hempty, hclosed⟩
  | out => exact of_popOs (k := fun w u => .next (u.emit w)) fun _ _ => trivial
  | pop => exact of_popOs fun _ _ => trivial
  | popR r => exact of_popOs (k := fun w u => .next (u.writeReg r w)) fun _ _ => trivial
  | popAtV v => exact of_popToRam fun h => .inl ⟨v, .inr rfl, h⟩
  | popAtR r => exact of_popToRam fun h => .inr ⟨r, .inr rfl, h⟩
  | pushV v => exact of_pushOs hos
  | pushR r => exact of_pushOs hos
  | pushAtV v => exact of_pushFromRam hos fun h => .inl ⟨v, .inl rfl, h⟩
  | pushAtR r => exact of_pushFromRam hos fun h => .inr ⟨r, .inl rfl, h⟩
  | add => exact of_binaryArith hos
  | sub => exact of_binaryArith hos
  | mul => exact of_binaryArith hos
  | div => exact of_binaryArith hos
  | sqrt => exact of_popOs fun _ _ => of_pushResult hos
  | dup => exact of_popOs (k := fun w _ => pushOs w (s.past .n)) fun _ _ => of_pushOs hos
  | jmp d => exact of_jumpTo _
  | jmpe d => exact of_condJump _ d
  | jmpne d => exact of_condJump _ d
  | jmpl d => exact of_condJump _ d
  | jmple d => exact of_condJump _ d
  | jmpg d => exact of_condJump _ d
  | jmpge d => exact of_condJump _ d
  | call d => exact of_pushCs hcs (of_jumpTo _)
  | ret => exact of_popCs (k := fun n u => .next (u.setPc n)) fun _ _ => trivial
  | hlt => exact trivial

/-- No step is refused: a running machine stops for a cause of its instruction, or at the fetch. -/
theorem step_stopsOnlyFor (s : State) :
    StopsOnlyFor (fun r => r = .fetchBeyondImage ∨ ∃ i, s.decodeAtPc = .instr i ∧ StopCause i s r) (step s) := by
  by_cases hrun : s.status = .running
  · cases hdecode : s.decodeAtPc with
    | instr i =>
      rw [step_of_instr hrun hdecode]
      exact (exec_stopsOnlyFor i s).mono fun r hr => .inr ⟨i, rfl, hr⟩
    | bad e =>
      rw [step_of_bad hrun hdecode]
      exact (StopsOnlyFor.of_decodeStop e).mono fun r hr => .inl hr
  · rw [step_next.2 (.inl ⟨hrun, rfl⟩)]
    trivial

end Sys2Proof.Machine

open Sys2Proof Sys2Proof.Machine

/-- Settles O41. -/
theorem assembledDeltaReachesItsTarget : Obligations.AssembledDeltaReachesItsTarget := by
  intro s target hpc himage hlo hhi
  have hpc31 : s.pc.toInt < 2 ^ 31 := BitVec.toInt_lt
  have htarget : (BitVec.ofInt 32 target).toInt = target := BitVec.toInt_ofInt_eq_self (by decide) (by omega) (by omega)
  refine ⟨(s.past .j).setPc (BitVec.ofInt 32 target), ?_, htarget, rfl⟩
  have hlegal : (s.past .j).legalTarget target = true := State.legalTarget_iff.2 ⟨hlo, hhi⟩
  rw [exec, execJmp, jumpTarget_deltaTo (by omega) (by omega)]
  exact jumpTo_next.2 (.inl ⟨hlegal, rfl⟩)

/-- Settles O50. -/
theorem noInstructionIsRefused : Obligations.NoInstructionIsRefused := by
  refine ⟨fun i s => (exec_stopsOnlyFor i s).ne_refused, fun s => (step_stopsOnlyFor s).ne_refused,
    fun i s f hos hcs hfault => ?_⟩
  have hstops := exec_stopsOnlyFor i s
  rw [hfault] at hstops
  obtain ⟨r, u, hcause, -, -⟩ := hstops
  cases r with
  | fetchBeyondImage => exact hcause.elim
  | ramOverrun => exact hcause.imp_right .inl
  | stackOverflow => exact absurd hcause (not_or.2 ⟨not_not.2 hos, not_not.2 hcs⟩)
  | inputUnavailable => exact .inr (.inr hcause)

end

section
/-! Fetch at the edges of the image: what the bytes from `pc` on are, inside it, outside it, cut short, and where a word was
placed. -/

namespace Sys2Proof

/-- Operand read judges no operand byte where fewer are left than the form has (spec/40_fetch_decode.md R73). -/
theorem readOperand_of_truncated {f : Form} {bs : List Byte} (h : bs.length + 1 < f.format.length) :
    readOperand f bs = .bad .operandBeyondImage := by
  unfold readOperand
  split
  case h_5 => rfl
  all_goals
    simp only [Form.format, Format.length, List.length_cons] at h
    omega

/-- Bytes that decode to an instruction decode to it whatever follows them. -/
theorem decode_append_of_instr {t : OpcTable} (ht : t.legal = true) {bytes : List Byte} {i : Instr}
    (h : decode t bytes = .instr i) (rest : List Byte) : decode t (bytes ++ rest) = .instr i := by
  obtain ⟨hwf, tail, rfl⟩ := encode_of_decode h
  rw [List.append_assoc]
  exact decode_encode ht hwf (tail ++ rest)

theorem decodeTableWord_eq_some_iff {nbits w : Nat} {i : Instr} :
    decodeTableWord nbits w = some i ↔ decode OpcTable.default (tableBytes nbits w) = .instr i := by
  rw [decodeTableWord]
  cases decode OpcTable.default (tableBytes nbits w) <;> simp

end Sys2Proof

namespace Sys2Proof.Machine

theorem State.fetchBytes_of_nonneg {s : State} (h : 0 ≤ s.pc.toInt) :
    s.fetchBytes = s.image.drop s.pc.toInt.toNat := by
  rw [State.fetchBytes, if_neg (by omega)]

/-- There is no byte to fetch outside the image (spec/20_memory.md R31). -/
theorem State.fetchBytes_of_outside {s : State} (h : s.pc.toInt < 0 ∨ (s.image.length : Int) ≤ s.pc.toInt) :
    s.fetchBytes = [] := by
  obtain hneg | hend := h
  · rw [State.fetchBytes, if_pos hneg]
  · rw [State.fetchBytes_of_nonneg (by omega)]
    exact List.drop_eq_nil_of_le (by omega)

/-- From the offset on, an overwritten image is the bytes written and then what the image had after them. -/
theorem drop_overwriteImage (image : List Byte) (offset : Nat) (bytes : List Byte) :
    (overwriteImage image offset bytes).drop offset = bytes ++ image.drop (offset + bytes.length) := by
  have hfront : ((image ++ List.replicate (offset - image.length) 0).take offset).length = offset := by
    rw [List.length_take, List.length_append, List.length_replicate]
    omega
  rw [overwriteImage, List.append_assoc, List.drop_left' hfront]

/-- A placed word is what the next step fetches (log 18). -/
theorem State.fetchBytes_placeAtPc {s : State} (h : 0 ≤ s.pc.toInt) (bytes : List Byte) :
    (s.placeAtPc bytes).fetchBytes = bytes ++ s.image.drop (s.pc.toInt.toNat + bytes.length) := by
  rw [State.fetchBytes_of_nonneg (s := s.placeAtPc bytes) h]
  exact drop_overwriteImage s.image s.pc.toInt.toNat bytes

end Sys2Proof.Machine

open Sys2Proof Sys2Proof.Machine

/-- Settles O2. -/
theorem stepRunsTheDecodedInstruction : Obligations.StepRunsTheDecodedInstruction := by
  intro s i hrun hpc hdecode
  rw [← State.fetchBytes_of_nonneg hpc] at hdecode
  exact step_of_instr hrun hdecode

/-- Settles O4. -/
theorem fetchOutsideTheImageStops : Obligations.FetchOutsideTheImageStops := by
  intro s hrun hout
  have hdecode : s.decodeAtPc = .bad .opcodeBeyondImage := by
    rw [State.decodeAtPc, State.fetchBytes_of_outside hout, decode]
  exact step_of_bad hrun hdecode

/-- Settles O5. -/
theorem truncatedOperandStops : Obligations.TruncatedOperandStops := by
  intro s op rest f hrun hbytes hform hshort
  exact step_of_bad hrun ((s.decodeAtPc_of_form hbytes hform).trans (readOperand_of_truncated hshort))

/-- Settles O15: the word's bytes are fetched first, and the zeros and image bytes after the instruction's own change
nothing. -/
theorem placedWordIsTheNextInstruction : Obligations.PlacedWordIsTheNextInstruction := by
  intro s nbits w i htable hpc hword
  have hdecode : (s.withFetchWord nbits w).decodeAtPc = .instr i := by
    rw [State.decodeAtPc, State.withFetchWord, State.fetchBytes_placeAtPc hpc, State.placeAtPc_params, htable]
    exact decode_append_of_instr OpcTable.default_legal (decodeTableWord_eq_some_iff.1 hword) _
  exact step_of_instr rfl hdecode

/-- Settles O58: of the four ways `pc` can move, a branch and `RET` are excluded. -/
theorem sequentialInstructionsAdvanceByTheirLength : Obligations.SequentialInstructionsAdvanceByTheirLength := by
  intro i s t hexec hjump hret
  obtain hseq | hblocked | ⟨hi, -⟩ | ⟨hi, -⟩ := (exec_effect hexec).pc
  · exact .inl hseq
  · exact .inr hblocked
  · exact absurd hi hjump
  · exact absurd hi hret

end

section
/-! The status after an instruction: only `HLT` leaves a machine Halted, and none answers a next state that is
Unspecified. -/

namespace Sys2Proof.Machine

/-- Running, or in an error: neither Halted nor Unspecified (spec/10_state.md R21). -/
def Status.RunningOrError : Status → Prop
  | .running | .error _ => True
  | .halted | .unspecified _ => False

namespace Status.RunningOrError

theorem ne_halted {v : Status} (h : v.RunningOrError) : v ≠ .halted := by
  rintro rfl
  exact h

theorem ne_unspecified {v : Status} (h : v.RunningOrError) (r : StopReason) : v ≠ .unspecified r := by
  rintro rfl
  exact h

section Operations

variable {s t : State} (hs : s.status.RunningOrError)
include hs

theorem of_pushOs {v : F64} (h : pushOs v s = .next t) : t.status.RunningOrError := by
  obtain ⟨-, rfl⟩ := pushOs_next.1 h
  exact hs

theorem of_popOs {k : F64 → State → Out} (h : popOs s k = .next t)
    (hk : ∀ w s', s'.status.RunningOrError → k w s' = .next t → t.status.RunningOrError) :
    t.status.RunningOrError := by
  obtain ⟨-, rfl⟩ | ⟨w, rest, -, hnext⟩ := popOs_next.1 h
  · trivial
  · exact hk w (s.setOs rest) hs hnext

theorem of_pushResult {op : ArithOp} {xs : List F64} {r : FResult} (h : pushResult op xs r s = .next t) :
    t.status.RunningOrError := by
  obtain ⟨-, ⟨v, -, rfl⟩ | ⟨-, rfl⟩⟩ := pushResult_next.1 h
  · exact hs
  · exact hs

theorem of_binaryArith {op : ArithOp} {f : F64 → F64 → FResult} (h : binaryArith op f s = .next t) :
    t.status.RunningOrError := by
  obtain ⟨-, rfl⟩ | ⟨rhs, lhs, rest, -, hpush⟩ := binaryArith_next.1 h
  · trivial
  · exact of_pushResult (s := (s.past .n).setOs rest) hs hpush

theorem of_pushFromRam {v : F64} (h : pushFromRam v s = .next t) : t.status.RunningOrError := by
  obtain ⟨-, rfl⟩ | ⟨a, -, -, rfl⟩ := pushFromRam_next.1 h
  · trivial
  · exact hs

theorem of_popToRam {v : F64} (h : popToRam v s = .next t) : t.status.RunningOrError := by
  obtain ⟨-, rfl⟩ | ⟨w, rest, -, ⟨-, rfl⟩ | ⟨a, -, rfl⟩⟩ := popToRam_next.1 h
  · trivial
  · trivial
  · exact hs

theorem of_jumpTo {g : Int} (h : jumpTo g s = .next t) : t.status.RunningOrError := by
  obtain ⟨-, rfl⟩ | ⟨-, rfl⟩ := jumpTo_next.1 h
  · exact hs
  · trivial

theorem of_condJump {pred : F64 → F64 → Bool} {d : W32} (h : condJump pred d s = .next t) :
    t.status.RunningOrError := by
  obtain ⟨-, rfl⟩ | ⟨rhs, lhs, rest, -, ⟨-, rfl⟩ | ⟨-, ⟨-, hjump⟩ | ⟨-, rfl⟩⟩⟩ := condJump_next.1 h
  · trivial
  · trivial
  · exact of_jumpTo (s := (s.past .j).setOs rest) hs hjump
  · exact hs

theorem of_popR {r : Reg} (h : exec (.popR r) s = .next t) : t.status.RunningOrError := by
  obtain ⟨-, rfl⟩ | ⟨w, rest, -, rfl⟩ := exec_popR_next.1 h
  · trivial
  · exact hs

theorem of_execIn (h : execIn s = .next t) : t.status.RunningOrError := by
  obtain ⟨w, rest, -, -, rfl⟩ | ⟨-, -, rfl⟩ := execIn_next.1 h
  · exact hs
  · exact hs

theorem of_execOut (h : execOut s = .next t) : t.status.RunningOrError := by
  obtain ⟨-, rfl⟩ | ⟨w, rest, -, rfl⟩ := execOut_next.1 h
  · trivial
  · exact hs

theorem of_execCall {d : W32} (h : execCall d s = .next t) : t.status.RunningOrError := by
  obtain ⟨-, hjump⟩ := pushCs_next.1 h
  exact of_jumpTo (s := (s.past .j).setCs ((s.past .j).pc :: s.cs)) hs hjump

theorem of_execRet (h : execRet s = .next t) : t.status.RunningOrError := by
  obtain ⟨-, rfl⟩ | ⟨n, rest, -, hnext⟩ := popCs_next.1 h
  · trivial
  · cases hnext
    exact hs

end Operations

end Status.RunningOrError

open Status.RunningOrError in
/-- `HLT` apart, an instruction that a running machine executes leaves it running or takes an error. -/
theorem exec_runningOrError {i : Instr} {s t : State} (hrun : s.status = .running) (hi : i ≠ .hlt)
    (h : exec i s = .next t) : t.status.RunningOrError := by
  have hs : s.status.RunningOrError := hrun ▸ trivial
  cases i with
  | inp => exact of_execIn hs h
  | out => exact of_execOut hs h
  | pop => exact of_popOs (s := s.past .n) hs h fun _ _ hs' hk => by cases hk; exact hs'
  | popR r => exact of_popR hs h
  | popAtV v => exact of_popToRam (s := s.past .i) hs h
  | popAtR r => exact of_popToRam (s := s.past .r) hs h
  | pushV v => exact of_pushOs (s := s.past .i) hs h
  | pushR r => exact of_pushOs (s := s.past .r) hs h
  | pushAtV v => exact of_pushFromRam (s := s.past .i) hs h
  | pushAtR r => exact of_pushFromRam (s := s.past .r) hs h
  | add => exact of_binaryArith hs h
  | sub => exact of_binaryArith hs h
  | mul => exact of_binaryArith hs h
  | div => exact of_binaryArith hs h
  | sqrt => exact of_popOs (s := s.past .n) hs h fun _ _ hs' hk => of_pushResult hs' hk
  | dup =>
    exact of_popOs (s := s.past .n) (k := fun w _ => pushOs w (s.past .n)) hs h fun _ _ _ hk =>
      of_pushOs (s := s.past .n) hs hk
  | jmp d => exact of_jumpTo (s := s.past .j) hs h
  | jmpe d => exact of_condJump hs h
  | jmpne d => exact of_condJump hs h
  | jmpl d => exact of_condJump hs h
  | jmple d => exact of_condJump hs h
  | jmpg d => exact of_condJump hs h
  | jmpge d => exact of_condJump hs h
  | call d => exact of_execCall hs h
  | ret => exact of_execRet hs h
  | hlt => exact absurd rfl hi

/-- `HLT` always answers a halted state (spec/44_io_and_halt.md R126). -/
theorem exec_hlt_next {s t : State} : exec .hlt s = .next t ↔ t = (s.past .n).setStatus .halted := halt_next

end Sys2Proof.Machine

open Sys2Proof Sys2Proof.Machine

/-- Settles O49: at `HLT` the next state is Halted; any other instruction, and an error at decoding, leaves the machine
running or in an error. -/
theorem onlyHltEndsARunSuccessfully : Obligations.OnlyHltEndsARunSuccessfully := by
  refine ⟨fun s t hrun hstep => ?_, fun s f hfault => ?_⟩
  · by_cases hhlt : s.decodeAtPc = .instr .hlt
    · rw [step_of_instr hrun hhlt, exec_hlt_next] at hstep
      subst hstep
      exact ⟨iff_of_true rfl hhlt, nofun⟩
    · have hlive : t.status.RunningOrError := by
        obtain ⟨hstopped, -⟩ | ⟨-, ⟨i, hdecode, hexec⟩ | ⟨e, -, hstop⟩⟩ := step_next.1 hstep
        · exact absurd hrun hstopped
        · exact exec_runningOrError hrun (fun hi => hhlt (hi ▸ hdecode)) hexec
        · obtain ⟨k, rfl⟩ := decodeStop_next_advance hstop
          trivial
      exact ⟨iff_of_false hlive.ne_halted hhlt, hlive.ne_unspecified⟩
  · have hstops := step_stopsOnlyFor s
    rw [hfault] at hstops
    obtain ⟨r, u, -, hf, hu⟩ := hstops
    exact ⟨r, u, hf, hu⟩

end

section
/-! The stack moves (spec/41_stack_moves.md): what each of their shared operations answers in each case, faults
included, and from that what `PUSH`, `POP` and `DUP` do. A `[v]` and an `[R]` form are one operation at two operands, so
one rule serves both. -/

namespace Sys2Proof.Machine

/-! ## The operand stack -/

/-- A push onto a full stack stops the machine with nothing pushed (spec/10_state.md R17). -/
theorem pushOs_of_full {v : F64} {s : State} (h : s.osFull = true) : pushOs v s = stopUnspecified .stackOverflow s :=
  if_pos h

/-- Past the depth check, what follows a pop runs on the stack without its top cell. -/
theorem popOs_of_cons {s : State} {w : F64} {rest : List F64} {k : F64 → State → Out} (h : s.os = w :: rest) :
    popOs s k = k w (s.setOs rest) := by
  rw [popOs, h]

/-- A stack within its capacity has room for the cell that a pop took from it. -/
theorem not_full_of_withinCap_succ {cap : Option Nat} {d : Nat} (h : withinCap cap (d + 1) = true) :
    stackFull cap d = false := by
  cases cap with
  | none => rfl
  | some c =>
    simp only [withinCap, stackFull, decide_eq_true_eq, decide_eq_false_iff_not] at h ⊢
    omega

/-- `DUP` checks the depth and then pushes onto the stack it found (spec/41_stack_moves.md R88). -/
theorem exec_dup_eq (s : State) : exec .dup s = popOs (s.past .n) fun w _ => pushOs w (s.past .n) := rfl

theorem exec_dup_of_cons {s : State} {w : F64} {rest : List F64} (h : s.os = w :: rest) :
    exec .dup s = pushOs w (s.past .n) :=
  (exec_dup_eq s).trans (popOs_of_cons h)

/-! ## The RAM forms -/

section RamForms

variable {v : F64} {s : State} {a : Nat}

theorem withRamAddr_of_ok {k : Nat → Out} (ha : ramAddr v = .ok a) : withRamAddr v s k = k a := by
  obtain ⟨-, -, hok⟩ := ramAddressOfEveryValue.2 v s k
  exact hok a ha

theorem withRamAddr_of_overrun {k : Nat → Out} (ha : ramAddr v = .overrun) :
    withRamAddr v s k = stopUnspecified .ramOverrun s := by
  obtain ⟨-, hoverrun, -⟩ := ramAddressOfEveryValue.2 v s k
  exact hoverrun ha

theorem pushFromRam_of_full (ha : ramAddr v = .ok a) (hfull : s.osFull = true) :
    pushFromRam v s = stopUnspecified .stackOverflow s :=
  (withRamAddr_of_ok ha).trans (pushOs_of_full hfull)

theorem pushFromRam_of_ok (ha : ramAddr v = .ok a) (hroom : s.osFull = false) :
    pushFromRam v s = .next (s.setOs (s.ram.load a :: s.os)) :=
  pushFromRam_next.2 (.inr ⟨a, ha, hroom, rfl⟩)

theorem pushFromRam_of_invalid (ha : ramAddr v = .invalid) : pushFromRam v s = takeError .invalidRamAddress s :=
  pushFromRam_next.2 (.inl ⟨ha, rfl⟩)

theorem pushFromRam_of_overrun (ha : ramAddr v = .overrun) : pushFromRam v s = stopUnspecified .ramOverrun s :=
  withRamAddr_of_overrun ha

theorem popToRam_of_empty (hos : s.os = []) : popToRam v s = takeError .stackUnderflow s :=
  popToRam_next.2 (.inl ⟨hos, rfl⟩)

variable {w : F64} {rest : List F64}

theorem popToRam_of_ok (hos : s.os = w :: rest) (ha : ramAddr v = .ok a) :
    popToRam v s = .next ((s.setOs rest).setRam (s.ram.store a w)) :=
  popToRam_next.2 (.inr ⟨w, rest, hos, .inr ⟨a, ha, rfl⟩⟩)

/-- The cell is gone when the address is found bad (spec/41_stack_moves.md R86; D13). -/
theorem popToRam_of_invalid (hos : s.os = w :: rest) (ha : ramAddr v = .invalid) :
    popToRam v s = takeError .invalidRamAddress (s.setOs rest) :=
  popToRam_next.2 (.inr ⟨w, rest, hos, .inl ⟨ha, rfl⟩⟩)

/-- The cell is gone when the address is found to overrun (spec/41_stack_moves.md R86; D13). -/
theorem popToRam_of_overrun (hos : s.os = w :: rest) (ha : ramAddr v = .overrun) :
    popToRam v s = stopUnspecified .ramOverrun (s.setOs rest) :=
  (popOs_of_cons hos).trans (withRamAddr_of_overrun ha)

end RamForms

end Sys2Proof.Machine

open Sys2Proof Sys2Proof.Machine

/-- Settles O24. -/
theorem popToRamStoresEightBytes : Obligations.PopToRamStoresEightBytes := by
  intro s w rest v r a hwf hos
  have hstored : StoredAt s.ram (s.ram.store a w) a w := Memory.storedAt_store hwf a w
  exact ⟨fun ha => ⟨_, popToRam_of_ok (s := s.past .i) hos ha, hstored⟩,
    fun ha => ⟨_, popToRam_of_ok (s := s.past .r) hos ha, hstored⟩⟩

/-- Settles O27: a register holds the pattern itself, and a load gives back the 64 bits just stored. -/
theorem movesKeepAllSixtyFourBits : Obligations.MovesKeepAllSixtyFourBits := by
  refine ⟨fun s v r hroom => ?_, fun s u w rest a hwf hos hcap ha => ?_⟩
  · have hpush : exec (.pushV v) s = .next ((s.past .i).setOs (v :: s.os)) := pushOs_next.2 ⟨hroom, rfl⟩
    exact ⟨_, _, hpush, exec_popR_next.2 (.inr ⟨v, s.os, rfl, rfl⟩), Regs.read_write_same s.regs r v, rfl⟩
  · have hroom : stackFull s.params.ostackCap rest.length = false :=
      not_full_of_withinCap_succ (by simpa [State.osWithinCap, hos] using hcap)
    have hpop : exec (.popAtV u) s = .next (((s.past .i).setOs rest).setRam (s.ram.store a w)) :=
      popToRam_of_ok (s := s.past .i) hos ha
    refine ⟨_, _, hpop, pushFromRam_of_ok ha hroom, ?_⟩
    simp [Memory.load_store_same hwf, hos]

/-- Settles O20. -/
theorem pushImmediateAndRegister : Obligations.PushImmediateAndRegister :=
  fun _ _ _ => ⟨fun hroom => pushOs_next.2 ⟨hroom, rfl⟩, fun hroom => pushOs_next.2 ⟨hroom, rfl⟩,
    fun hfull => pushOs_of_full hfull, fun hfull => pushOs_of_full hfull⟩

/-- Settles O21. -/
theorem pushFromRamLoadsEightBytes : Obligations.PushFromRamLoadsEightBytes :=
  fun s _ _ _ =>
    ⟨pushFromRam_of_ok (s := s.past .i), pushFromRam_of_ok (s := s.past .r),
      pushFromRam_of_full (s := s.past .i), pushFromRam_of_full (s := s.past .r),
      pushFromRam_of_invalid (s := s.past .i), pushFromRam_of_invalid (s := s.past .r),
      pushFromRam_of_overrun (s := s.past .i), pushFromRam_of_overrun (s := s.past .r)⟩

/-- Settles O22. -/
theorem popDiscardsTheTop : Obligations.PopDiscardsTheTop :=
  ⟨fun _ _ _ hos => popOs_of_cons hos, fun _ hos => popOs_next.2 (.inl ⟨hos, rfl⟩), fun _ => rfl⟩

/-- Settles O23. -/
theorem popRegisterWritesThatRegisterOnly : Obligations.PopRegisterWritesThatRegisterOnly := by
  refine ⟨fun s r w rest hos => ?_, fun s r hos => exec_popR_next.2 (.inl ⟨hos, rfl⟩)⟩
  exact ⟨s.regs.write r w, exec_popR_next.2 (.inr ⟨w, rest, hos, rfl⟩), Regs.read_write_same s.regs r w,
    fun q hq => Regs.read_write_of_ne s.regs w hq⟩

/-- Settles O25. -/
theorem popToRamWithABadAddress : Obligations.PopToRamWithABadAddress :=
  fun s _ _ =>
    ⟨popToRam_of_empty (s := s.past .i), popToRam_of_empty (s := s.past .r), fun _ _ hos =>
      ⟨popToRam_of_invalid (s := s.past .i) hos, popToRam_of_invalid (s := s.past .r) hos,
        popToRam_of_overrun (s := s.past .i) hos, popToRam_of_overrun (s := s.past .r) hos⟩⟩

/-- Settles O26. -/
theorem dupCopiesTheTop : Obligations.DupCopiesTheTop := by
  refine ⟨fun s w rest hos hroom => ?_, fun s hos => ?_, fun s w rest hos hfull => ?_, fun _ => rfl⟩
  · have hpush : pushOs w (s.past .n) = .next ((s.past .n).setOs (w :: s.os)) := pushOs_next.2 ⟨hroom, rfl⟩
    rw [exec_dup_of_cons hos, hpush, hos]
    rfl
  · rw [exec_dup_eq]
    exact popOs_next.2 (.inl ⟨hos, rfl⟩)
  · exact (exec_dup_of_cons hos).trans (pushOs_of_full hfull)

end

section
/-! A pattern as its sign and its magnitude (spec/20_memory.md R38): the two determine it, each class of patterns is a
range of magnitudes, and a greater magnitude has a greater value. -/

namespace Sys2Proof.Machine

/-! ## Sign and magnitude -/

theorem f64Sign_eq_decide (v : F64) : f64Sign v = decide (2 ^ 63 ≤ v.toNat) := by
  rw [f64Sign, ← BitVec.msb_eq_decide v, BitVec.msb_eq_getLsbD_last]

theorem magnitude_lt (v : F64) : magnitude v < 2 ^ 63 := Nat.mod_lt _ (by decide)

theorem toNat_eq_sign_add_magnitude (v : F64) : v.toNat = (if f64Sign v then 2 ^ 63 else 0) + magnitude v := by
  have hlt := v.isLt
  simp only [f64Sign_eq_decide, magnitude, decide_eq_true_eq]
  split <;> omega

theorem withSign_sign_magnitude (v : F64) : withSign (f64Sign v) (magnitude v) = v := by
  rw [withSign, ← toNat_eq_sign_add_magnitude, BitVec.ofNat_toNat, BitVec.setWidth_eq]

section WithSign

variable (negative : Bool) {m : Nat}

theorem toNat_withSign (hm : m < 2 ^ 63) : (withSign negative m).toNat = (if negative then 2 ^ 63 else 0) + m := by
  rw [withSign, BitVec.toNat_ofNat, Nat.mod_eq_of_lt]
  split <;> omega

theorem magnitude_withSign (hm : m < 2 ^ 63) : magnitude (withSign negative m) = m := by
  rw [magnitude, toNat_withSign negative hm]
  split <;> omega

theorem f64Sign_withSign (hm : m < 2 ^ 63) : f64Sign (withSign negative m) = negative := by
  rw [f64Sign_eq_decide, toNat_withSign negative hm]
  cases negative
  · simpa using hm
  · simp

end WithSign

@[simp] theorem f64Sign_fneg (v : F64) : f64Sign (fneg v) = !f64Sign v := by
  have hbit : (0x8000000000000000 : F64).getLsbD 63 = true := by decide
  rw [f64Sign, fneg, BitVec.getLsbD_xor, hbit, Bool.xor_true, f64Sign]

@[simp] theorem magnitude_fneg (v : F64) : magnitude (fneg v) = magnitude v := by
  rw [magnitude, fneg, BitVec.toNat_xor, Nat.xor_mod_two_pow]
  exact Nat.xor_zero _

/-! ## Classes of patterns by magnitude -/

theorem isFinite_iff_magnitude {v : F64} : isFinite v = true ↔ magnitude v < infMagnitude := by
  have hexp := magnitude_div v
  have hlt := magnitude_lt v
  simp only [isFinite, bne_iff_ne, infMagnitude]
  omega

theorem isInf_iff_magnitude {v : F64} : isInf v = true ↔ magnitude v = infMagnitude := by
  have hexp := magnitude_div v
  have hfrac := magnitude_mod v
  simp only [isInf, Bool.and_eq_true, beq_iff_eq, infMagnitude]
  omega

theorem isNaN_iff_magnitude {v : F64} : isNaN v = true ↔ infMagnitude < magnitude v := by
  have hexp := magnitude_div v
  have hfrac := magnitude_mod v
  have hlt := magnitude_lt v
  simp only [isNaN, Bool.and_eq_true, beq_iff_eq, bne_iff_ne, infMagnitude]
  omega

theorem isZero_iff_magnitude {v : F64} : isZero v = true ↔ magnitude v = 0 := by
  have hexp := magnitude_div v
  have hfrac := magnitude_mod v
  simp only [isZero, Bool.and_eq_true, beq_iff_eq]
  omega

theorem isNaN_eq_false_iff {v : F64} : isNaN v = false ↔ magnitude v ≤ infMagnitude := by
  rw [← Bool.not_eq_true, isNaN_iff_magnitude, not_lt]

theorem isNaN_of_isFinite {v : F64} (h : isFinite v = true) : isNaN v = false :=
  isNaN_eq_false_iff.2 (isFinite_iff_magnitude.1 h).le

theorem isInf_of_isFinite {v : F64} (h : isFinite v = true) : isInf v = false :=
  Bool.eq_false_iff.2 fun hinf => (isFinite_iff_magnitude.1 h).ne (isInf_iff_magnitude.1 hinf)

theorem isNaN_of_isInf {v : F64} (h : isInf v = true) : isNaN v = false :=
  isNaN_eq_false_iff.2 (isInf_iff_magnitude.1 h).le

theorem isZero_of_isInf {v : F64} (h : isInf v = true) : isZero v = false :=
  Bool.eq_false_iff.2 fun hzero => by
    have hmag := (isInf_iff_magnitude.1 h).symm.trans (isZero_iff_magnitude.1 hzero)
    exact absurd hmag (by decide)

theorem isFinite_of_isZero {v : F64} (h : isZero v = true) : isFinite v = true :=
  isFinite_iff_magnitude.2 (by rw [isZero_iff_magnitude.1 h]; decide)

@[simp] theorem isFinite_fneg (v : F64) : isFinite (fneg v) = isFinite v := by
  rw [Bool.eq_iff_iff, isFinite_iff_magnitude, isFinite_iff_magnitude, magnitude_fneg]

@[simp] theorem isNaN_fneg (v : F64) : isNaN (fneg v) = isNaN v := by
  rw [Bool.eq_iff_iff, isNaN_iff_magnitude, isNaN_iff_magnitude, magnitude_fneg]

@[simp] theorem isInf_fneg (v : F64) : isInf (fneg v) = isInf v := by
  rw [Bool.eq_iff_iff, isInf_iff_magnitude, isInf_iff_magnitude, magnitude_fneg]

@[simp] theorem isZero_fneg (v : F64) : isZero (fneg v) = isZero v := by
  rw [Bool.eq_iff_iff, isZero_iff_magnitude, isZero_iff_magnitude, magnitude_fneg]

/-! ## NaN patterns -/

/-- The 2^52 - 1 magnitudes above that of infinity are the fractions of a NaN. -/
theorem magnitude_nanBits (p : NaNPattern) : magnitude (nanBits p) = infMagnitude + (p.payload.val + 1) :=
  magnitude_withSign p.negative (by have := p.payload.isLt; simp only [infMagnitude]; omega)

theorem isNaN_nanBits (p : NaNPattern) : isNaN (nanBits p) = true :=
  isNaN_iff_magnitude.2 (by rw [magnitude_nanBits]; omega)

theorem exists_nanBits_eq {w : F64} (h : isNaN w = true) : ∃ p, nanBits p = w := by
  rw [isNaN_iff_magnitude] at h
  have hlt := magnitude_lt w
  have hpayload : magnitude w - infMagnitude - 1 < 4503599627370495 := by simp only [infMagnitude] at h ⊢; omega
  have hmag : infMagnitude + (magnitude w - infMagnitude - 1 + 1) = magnitude w := by omega
  refine ⟨⟨f64Sign w, ⟨_, hpayload⟩⟩, ?_⟩
  rw [nanBits, hmag, withSign_sign_magnitude]

/-! ## Units -/

theorem magUnits_of_lt {m : Nat} (h : m < 2 ^ 52) : magUnits m = m := if_pos h

/-- The units of a normal magnitude, by its biased exponent `e + 1` and its fraction. -/
theorem magUnits_normal (e : Nat) {f : Nat} (hf : f < 2 ^ 52) :
    magUnits ((e + 1) * 2 ^ 52 + f) = (2 ^ 52 + f) * 2 ^ e := by
  have hmod : ((e + 1) * 2 ^ 52 + f) % 2 ^ 52 = f := by omega
  have hdiv : ((e + 1) * 2 ^ 52 + f) / 2 ^ 52 - 1 = e := by omega
  rw [magUnits, if_neg (by omega), hmod, hdiv]

/-- A greater magnitude is a greater value, across the step from one exponent to the next as well. -/
theorem magUnits_strictMono : StrictMono magUnits := by
  refine strictMono_nat_of_lt_succ fun m => ?_
  by_cases hm : m < 2 ^ 52
  · by_cases hm' : m + 1 < 2 ^ 52
    · rw [magUnits_of_lt hm, magUnits_of_lt hm']
      omega
    · obtain rfl : m = 2 ^ 52 - 1 := by omega
      decide
  · obtain ⟨e, f, hf, rfl⟩ : ∃ e f, f < 2 ^ 52 ∧ m = (e + 1) * 2 ^ 52 + f :=
      ⟨m / 2 ^ 52 - 1, m % 2 ^ 52, by omega, by omega⟩
    rw [magUnits_normal e hf]
    by_cases hf' : f + 1 < 2 ^ 52
    · rw [add_assoc, magUnits_normal e hf']
      exact Nat.mul_lt_mul_of_pos_right (by omega) (by positivity)
    · have hnext : (e + 1) * 2 ^ 52 + f + 1 = (e + 1 + 1) * 2 ^ 52 + 0 := by omega
      rw [hnext, magUnits_normal (e + 1) (by decide), pow_succ' 2 e, ← mul_assoc]
      exact Nat.mul_lt_mul_of_pos_right (by omega) (by positivity)

theorem magUnits_infMagnitude : magUnits infMagnitude = 2 ^ 2098 := by
  have h : infMagnitude = (2046 + 1) * 2 ^ 52 + 0 := by decide
  rw [h, magUnits_normal 2046 (by decide), add_zero, ← pow_add]

/-- The greatest finite value is one step of its exponent below infinity. -/
theorem magUnits_greatestFinite_add : magUnits (infMagnitude - 1) + 2 ^ 2045 = 2 ^ 2098 := by
  have h : infMagnitude - 1 = (2045 + 1) * 2 ^ 52 + (2 ^ 52 - 1) := by decide
  have hfrac : 2 ^ 52 + (2 ^ 52 - 1) + 1 = 2 ^ 53 := by decide
  rw [h, magUnits_normal 2045 (by decide), ← Nat.succ_mul, Nat.succ_eq_add_one, hfrac, ← pow_add]

theorem units_eq_zero_iff {v : F64} : units v = 0 ↔ isZero v = true := by
  rw [isZero_iff_magnitude]
  exact magUnits_strictMono.injective.eq_iff (b := 0)

@[simp] theorem units_fneg (v : F64) : units (fneg v) = units v := by rw [units, magnitude_fneg, units]

@[simp] theorem signedUnits_fneg (v : F64) : signedUnits (fneg v) = -signedUnits v := by
  rw [signedUnits, signedUnits, f64Sign_fneg, units_fneg]
  cases f64Sign v <;> simp

@[simp] theorem ratValue_fneg (v : F64) : ratValue (fneg v) = -ratValue v := by
  rw [ratValue, ratValue, signedUnits_fneg, Int.cast_neg, neg_div]

end Sys2Proof.Machine
end

section
/-! Rounding of an exact result of `y` units to a magnitude (spec/42_arithmetic.md R90). `NearestMagnitude` states
correct rounding by the midpoints to the other magnitudes; `roundNearestEven`, and so `roundRatio` and `roundRoot`,
meet it. -/

namespace Sys2Proof.Machine

/-! ## The search -/

/-- The search finds the greatest number in its range that `holds`, where `holds` is closed downwards. -/
theorem greatest_spec {holds : Nat → Bool} (hdown : ∀ m n, m ≤ n → holds n = true → holds m = true) (k p : Nat)
    (hp : holds p = true) :
    holds (greatest holds k p) = true ∧ ∀ m < p + 2 ^ k, holds m = true → m ≤ greatest holds k p := by
  induction k generalizing p with
  | zero => exact ⟨hp, fun m hm _ => by rw [greatest]; omega⟩
  | succ k ih =>
    rw [greatest, pow_succ, mul_two, ← add_assoc]
    split
    · next hmid => exact ih (p + 2 ^ k) hmid
    · next hmid =>
      obtain ⟨hholds, hmax⟩ := ih p hp
      exact ⟨hholds, fun m _ hm => hmax m (lt_of_not_ge fun hge => hmid (hdown _ m hge hm)) hm⟩

/-! ## The nearest magnitude -/

/-- `m` is the magnitude nearest to `y` units, ties to even, with infinity at its place after the greatest finite
magnitude: `y` lies on the near side of the midpoint between `m` and any other magnitude, or on it where `m` is even. -/
structure NearestMagnitude (y : ℝ) (m : ℕ) : Prop where
  le_inf : m ≤ infMagnitude
  below : ∀ q < m, (magUnits q + magUnits m : ℝ) ≤ 2 * y ∧ ((magUnits q + magUnits m : ℝ) = 2 * y → m % 2 = 0)
  above : ∀ q ≤ infMagnitude, m < q →
    2 * y ≤ (magUnits m + magUnits q : ℝ) ∧ (2 * y = (magUnits m + magUnits q : ℝ) → m % 2 = 0)

theorem magUnits_cast_strictMono : StrictMono fun m => (magUnits m : ℝ) := Nat.strictMono_cast.comp magUnits_strictMono

theorem nearestMagnitude_zero : NearestMagnitude 0 0 where
  le_inf := Nat.zero_le _
  below q hq := absurd hq q.not_lt_zero
  above q _ _ := ⟨by rw [mul_zero]; positivity, fun _ => rfl⟩

section Between

variable {y : ℝ} {p : ℕ}

/-- Of two adjacent magnitudes about `y`, the lower one is nearest up to the midpoint. -/
theorem nearestMagnitude_lower (hp : p < infMagnitude) (hle : (magUnits p : ℝ) ≤ y)
    (hmid : 2 * y ≤ (magUnits p + magUnits (p + 1) : ℝ))
    (htie : 2 * y = (magUnits p + magUnits (p + 1) : ℝ) → p % 2 = 0) : NearestMagnitude y p where
  le_inf := hp.le
  below q hq := by
    have hlt : (magUnits q : ℝ) < magUnits p := magUnits_cast_strictMono hq
    exact ⟨by linarith, fun h => by linarith⟩
  above q _ hq := by
    have hle' : (magUnits (p + 1) : ℝ) ≤ magUnits q := magUnits_cast_strictMono.monotone hq
    exact ⟨by linarith, fun h => htie (by linarith)⟩

/-- Of two adjacent magnitudes about `y`, the upper one is nearest from the midpoint on. -/
theorem nearestMagnitude_upper (hp : p < infMagnitude) (hlt : y < magUnits (p + 1))
    (hmid : (magUnits p + magUnits (p + 1) : ℝ) ≤ 2 * y)
    (htie : (magUnits p + magUnits (p + 1) : ℝ) = 2 * y → (p + 1) % 2 = 0) : NearestMagnitude y (p + 1) where
  le_inf := hp
  below q hq := by
    have hle : (magUnits q : ℝ) ≤ magUnits p := magUnits_cast_strictMono.monotone (Nat.le_of_lt_succ hq)
    exact ⟨by linarith, fun h => htie (by linarith)⟩
  above q _ hq := by
    have hlt' : (magUnits (p + 1) : ℝ) < magUnits q := magUnits_cast_strictMono hq
    exact ⟨by linarith, fun h => by linarith⟩

theorem nearestMagnitude_inf (hle : (magUnits infMagnitude : ℝ) ≤ y) : NearestMagnitude y infMagnitude where
  le_inf := le_rfl
  below q hq := by
    have hlt : (magUnits q : ℝ) < magUnits infMagnitude := magUnits_cast_strictMono hq
    exact ⟨by linarith, fun h => by linarith⟩
  above q hq hlt := absurd hlt hq.not_gt

end Between

/-- `roundNearestEven` rounds correctly whenever `order` compares half units with the exact result `y`. -/
theorem roundNearestEven_nearest {order : ℕ → Ordering} {y : ℝ} (hy : 0 ≤ y)
    (horder : ∀ h, (order h).Compares (h : ℝ) (2 * y)) : NearestMagnitude y (roundNearestEven order) := by
  have hholds (m : ℕ) : (order (2 * magUnits m) != .gt) = true ↔ (magUnits m : ℝ) ≤ y := by
    rw [bne_iff_ne, (horder _).ne_gt, Nat.cast_mul, Nat.cast_ofNat, mul_le_mul_iff_right₀ two_pos]
  obtain ⟨hle, hmax⟩ := greatest_spec (holds := fun m => order (2 * magUnits m) != .gt)
    (fun m n hmn hn => (hholds m).2 ((magUnits_cast_strictMono.monotone hmn).trans ((hholds n).1 hn)))
    63 0 ((hholds 0).2 (by rwa [magUnits_of_lt (by decide), Nat.cast_zero]))
  rw [roundNearestEven]
  generalize greatest (fun m => order (2 * magUnits m) != .gt) 63 0 = p at hle hmax
  rw [hholds] at hle
  split
  · next hinf => exact nearestMagnitude_inf ((magUnits_cast_strictMono.monotone hinf).trans hle)
  · next hinf =>
    have hp : p < infMagnitude := not_le.1 hinf
    have hlt : y < magUnits (p + 1) := by
      refine not_le.1 fun hge => ?_
      have := hmax (p + 1) (by simp only [infMagnitude] at hp; omega) ((hholds _).2 hge)
      omega
    have hcmp := horder (magUnits p + magUnits (p + 1))
    rw [Nat.cast_add] at hcmp
    split
    · next ho =>
      have hmid := hcmp.eq_gt.1 ho
      exact nearestMagnitude_lower hp hle hmid.le fun h => absurd h hmid.ne
    · next ho =>
      have hmid := hcmp.eq_lt.1 ho
      exact nearestMagnitude_upper hp hlt hmid.le fun h => absurd h hmid.ne
    · next ho =>
      have hmid := hcmp.eq_eq.1 ho
      split
      · next heven => exact nearestMagnitude_lower hp hle hmid.ge fun _ => heven
      · next hodd => exact nearestMagnitude_upper hp hlt hmid.le fun _ => by omega

theorem compare_compares (a b : ℕ) : (compare a b).Compares a b := (compare_iff a b).1 rfl

theorem roundRatio_nearest (n : ℕ) {d : ℕ} (hd : 0 < d) : NearestMagnitude (n / d) (roundRatio n d) := by
  have hd' : (0 : ℝ) < d := Nat.cast_pos.2 hd
  refine roundNearestEven_nearest (by positivity) fun h => ?_
  have hscale : (2 * n : ℝ) = 2 * (n / d) * d := by rw [mul_assoc, div_mul_cancel₀ _ hd'.ne']
  have hcmp := (Nat.strictMono_cast (α := ℝ)).compares.2 (compare_compares (h * d) (2 * n))
  push_cast at hcmp
  rw [hscale] at hcmp
  exact (strictMono_mul_right_of_pos hd').compares.1 hcmp

theorem roundRoot_nearest (n : ℕ) : NearestMagnitude (√n) (roundRoot n) := by
  refine roundNearestEven_nearest (Real.sqrt_nonneg _) fun h => ?_
  have hsq : (4 * n : ℝ) = (2 * √n) ^ 2 := by rw [mul_pow, Real.sq_sqrt n.cast_nonneg]; norm_num
  have hcmp := (Nat.strictMono_cast (α := ℝ)).compares.2 (compare_compares (h * h) (4 * n))
  push_cast at hcmp
  rw [hsq, ← sq (h : ℝ)] at hcmp
  exact (pow_left_strictMonoOn₀ two_ne_zero).compares (Set.mem_Ici.2 h.cast_nonneg)
    (Set.mem_Ici.2 (by positivity)) |>.1 hcmp

/-! ## What the nearest magnitude is -/

/-- The midpoint of the greatest finite value and `2^1024`, the two in units. -/
theorem overflow_midpoint : (magUnits (infMagnitude - 1) + magUnits infMagnitude : ℝ) =
    2 * (((2 : ℝ) ^ 1024 - 2 ^ 970) * 2 ^ 1074) := by
  have hmax := congrArg (Nat.cast (R := ℝ)) magUnits_greatestFinite_add
  have hinf := congrArg (Nat.cast (R := ℝ)) magUnits_infMagnitude
  have hhalf : (2 : ℝ) ^ 2045 = 2 * 2 ^ 2044 := pow_succ' 2 2044
  simp only [Nat.cast_add, Nat.cast_pow, Nat.cast_ofNat] at hmax hinf
  rw [sub_mul, ← pow_add, ← pow_add, hinf, eq_sub_of_add_eq hmax, hhalf, sub_add_eq_add_sub, mul_sub, ← two_mul]

namespace NearestMagnitude

variable {y : ℝ} {m : ℕ}

/-- Infinity is nearest from the midpoint above the greatest finite magnitude on, which is odd. -/
theorem eq_inf_iff (h : NearestMagnitude y m) : m = infMagnitude ↔ ((2 : ℝ) ^ 1024 - 2 ^ 970) * 2 ^ 1074 ≤ y := by
  have hmid := overflow_midpoint
  generalize ((2 : ℝ) ^ 1024 - 2 ^ 970) * 2 ^ 1074 = bound at hmid ⊢
  constructor
  · rintro rfl
    obtain ⟨hle, -⟩ := h.below (infMagnitude - 1) (by decide)
    linarith
  · intro hy
    refine h.le_inf.antisymm (not_lt.1 fun hlt => ?_)
    obtain ⟨hle, heven⟩ := h.above infMagnitude le_rfl hlt
    have hm : (magUnits m : ℝ) ≤ magUnits (infMagnitude - 1) := magUnits_cast_strictMono.monotone (by omega)
    have hmax : m = infMagnitude - 1 := magUnits_cast_strictMono.injective (show (magUnits m : ℝ) = _ by linarith)
    have hodd : (infMagnitude - 1) % 2 = 1 := by decide
    have := heven (by linarith)
    omega

/-- Both cases of the definition at once: `(u - v) * (u + v - 2 * y)` is the difference of the squared distances of
`u` and `v` from `y`. -/
theorem mul_nonpos (h : NearestMagnitude y m) {q : ℕ} (hq : q ≤ infMagnitude) :
    (magUnits m - magUnits q : ℝ) * (magUnits m + magUnits q - 2 * y) ≤ 0 := by
  rcases lt_trichotomy q m with hlt | rfl | hlt
  · have hu : (magUnits q : ℝ) < magUnits m := magUnits_cast_strictMono hlt
    have := (h.below q hlt).1
    exact mul_nonpos_of_nonneg_of_nonpos (by linarith) (by linarith)
  · rw [sub_self, zero_mul]
  · have hu : (magUnits m : ℝ) < magUnits q := magUnits_cast_strictMono hlt
    have := (h.above q hq hlt).1
    exact mul_nonpos_of_nonpos_of_nonneg (by linarith) (by linarith)

theorem abs_sub_le (h : NearestMagnitude y m) {q : ℕ} (hq : q ≤ infMagnitude) :
    |(magUnits m : ℝ) - y| ≤ |(magUnits q : ℝ) - y| := by
  have := h.mul_nonpos hq
  exact sq_le_sq.1 (by linarith)

theorem even_of_tie (h : NearestMagnitude y m) {q : ℕ} (hq : q ≤ infMagnitude) (hne : q ≠ m)
    (htie : |(magUnits q : ℝ) - y| = |(magUnits m : ℝ) - y|) : m % 2 = 0 := by
  have hprod : (magUnits q - magUnits m : ℝ) * (magUnits q + magUnits m - 2 * y) = 0 := by
    have := (sq_eq_sq_iff_abs_eq_abs _ _).2 htie
    linarith
  have hu : (magUnits q : ℝ) - magUnits m ≠ 0 := sub_ne_zero.2 (magUnits_cast_strictMono.injective.ne hne)
  have hmid : (magUnits q + magUnits m : ℝ) = 2 * y := by
    linarith [(mul_eq_zero.1 hprod).resolve_left hu]
  rcases hne.lt_or_gt with hlt | hlt
  · exact (h.below q hlt).2 hmid
  · exact (h.above q hq hlt).2 (by rw [← hmid, add_comm])

theorem eq_zero_of_zero (h : NearestMagnitude 0 m) : m = 0 := by
  by_contra hm
  have hpos : (magUnits 0 : ℝ) < magUnits m := magUnits_cast_strictMono (Nat.pos_of_ne_zero hm)
  have := (h.below 0 (Nat.pos_of_ne_zero hm)).1
  have : (0 : ℝ) ≤ magUnits 0 := Nat.cast_nonneg _
  linarith

end NearestMagnitude

end Sys2Proof.Machine
end

section
/-! From magnitudes to patterns: the nearest magnitude under the result's sign is the result rounded once, as
`RoundedOnce` has it. -/

namespace Sys2Proof.Machine

/-- The factor that a sign bit stands for. -/
def signFactor (negative : Bool) : ℝ := if negative then -1 else 1

@[simp] theorem signFactor_false : signFactor false = 1 := rfl

@[simp] theorem signFactor_true : signFactor true = -1 := rfl

theorem signFactor_bne (s t : Bool) : signFactor (s != t) = signFactor s * signFactor t := by
  cases s <;> cases t <;> simp

theorem abs_signFactor_mul (s : Bool) (x : ℝ) : |signFactor s * x| = |x| := by cases s <;> simp

theorem ratValue_cast (v : F64) : ((ratValue v : ℚ) : ℝ) = signFactor (f64Sign v) * (units v / 2 ^ 1074) := by
  rw [ratValue, signedUnits]
  cases f64Sign v <;> simp [neg_div]

theorem abs_ratValue_cast (v : F64) : |((ratValue v : ℚ) : ℝ)| = units v / 2 ^ 1074 := by
  rw [ratValue_cast, abs_signFactor_mul, abs_of_nonneg (by positivity)]

theorem abs_div_two_pow_sub (u y : ℝ) : |u / 2 ^ 1074 - y / 2 ^ 1074| = |u - y| / 2 ^ 1074 := by
  rw [← sub_div, abs_div, abs_of_pos (show (0 : ℝ) < 2 ^ 1074 by positivity)]

theorem natCast_scale : ((2 ^ 1074 : ℕ) : ℝ) = 2 ^ 1074 := Nat.cast_pow 2 1074

section Distance

variable (q : F64) (negative : Bool) {y : ℝ}

theorem abs_ratValue_sub_of_sign_eq (y : ℝ) (hsign : f64Sign q = negative) :
    |((ratValue q : ℚ) : ℝ) - signFactor negative * (y / 2 ^ 1074)| = |(units q : ℝ) - y| / 2 ^ 1074 := by
  rw [ratValue_cast, hsign, ← mul_sub, abs_signFactor_mul, abs_div_two_pow_sub]

/-- Whatever its sign, a pattern is no nearer to a result than its units are to the result's. -/
theorem abs_units_sub_le (hy : 0 ≤ y) :
    |(units q : ℝ) - y| / 2 ^ 1074 ≤ |((ratValue q : ℚ) : ℝ) - signFactor negative * (y / 2 ^ 1074)| := by
  have h := abs_abs_sub_abs_le ((ratValue q : ℚ) : ℝ) (signFactor negative * (y / 2 ^ 1074))
  rwa [abs_ratValue_cast, abs_signFactor_mul, abs_of_nonneg (a := y / 2 ^ 1074) (by positivity),
    abs_div_two_pow_sub] at h

end Distance

theorem getLsbD_zero_eq_false_iff {v : F64} : v.getLsbD 0 = false ↔ magnitude v % 2 = 0 := by
  rw [BitVec.getLsbD, Nat.testBit_zero, decide_eq_false_iff_not, magnitude]
  omega

section RoundedOnce

variable {y : ℝ} {m : ℕ}

theorem NearestMagnitude.lt (h : NearestMagnitude y m) : m < 2 ^ 63 := h.le_inf.trans_lt (by decide)

/-- Two patterns of one magnitude and unlike values mirror each other about zero, so only a zero is as near to both. -/
theorem eq_zero_of_mirrored_tie {q r : F64} {x : ℝ} (hmag : magnitude q = magnitude r) (hne : ratValue q ≠ ratValue r)
    (htie : |((ratValue q : ℚ) : ℝ) - x| = |((ratValue r : ℚ) : ℝ) - x|) : x = 0 := by
  have hsign : f64Sign q ≠ f64Sign r := fun hs => hne (by
    rw [← withSign_sign_magnitude q, ← withSign_sign_magnitude r, hs, hmag])
  have hmirror : q = fneg r := by
    rw [← withSign_sign_magnitude q, ← withSign_sign_magnitude (fneg r), f64Sign_fneg, magnitude_fneg, hmag,
      Bool.eq_not_of_ne hsign]
  have hneg : ratValue q = -ratValue r := by rw [hmirror, ratValue_fneg]
  have hr : ((ratValue r : ℚ) : ℝ) ≠ 0 := Rat.cast_ne_zero.2 fun h0 => hne (by rw [hneg, h0, neg_zero])
  rw [hneg, Rat.cast_neg, ← sq_eq_sq_iff_abs_eq_abs] at htie
  exact (mul_eq_zero.1 (show ((ratValue r : ℚ) : ℝ) * x = 0 by linarith)).resolve_left hr

theorem NearestMagnitude.even_of_value_tie {negative : Bool} {r q : F64} (h : NearestMagnitude y (magnitude r))
    (hy : 0 ≤ y) (hsign : f64Sign r = negative) (hq : isFinite q = true) (hne : ratValue q ≠ ratValue r)
    (htie : |((ratValue q : ℚ) : ℝ) - signFactor negative * (y / 2 ^ 1074)| =
      |((ratValue r : ℚ) : ℝ) - signFactor negative * (y / 2 ^ 1074)|) :
    magnitude r % 2 = 0 := by
  have hq' := (isFinite_iff_magnitude.1 hq).le
  by_cases hmag : magnitude q = magnitude r
  · have hx := eq_zero_of_mirrored_tie hmag hne htie
    rw [← abs_eq_zero, abs_signFactor_mul, abs_eq_zero, div_eq_zero_iff] at hx
    obtain rfl : y = 0 := hx.resolve_right (by positivity)
    rw [h.eq_zero_of_zero]
  · have hle := abs_units_sub_le q negative hy
    rw [htie, abs_ratValue_sub_of_sign_eq r negative y hsign, div_le_div_iff_of_pos_right (by positivity)] at hle
    exact h.even_of_tie hq' hmag (hle.antisymm (h.abs_sub_le hq'))

/-- The nearest magnitude under the result's sign is the result rounded once. -/
theorem NearestMagnitude.roundedOnce (h : NearestMagnitude y m) (hy : 0 ≤ y) (negative : Bool) :
    RoundedOnce (signFactor negative * (y / 2 ^ 1074)) (withSign negative m) := by
  have hlt := h.lt
  have hmag := magnitude_withSign negative hlt
  have hsign := f64Sign_withSign negative hlt
  generalize withSign negative m = r at hmag hsign ⊢
  subst hmag
  have hinf : isInf r = true ↔ (2 : ℝ) ^ 1024 - 2 ^ 970 ≤ y / 2 ^ 1074 := by
    rw [isInf_iff_magnitude, h.eq_inf_iff, le_div_iff₀ (by positivity)]
  have habs : |signFactor negative * (y / 2 ^ 1074)| = y / 2 ^ 1074 := by
    rw [abs_signFactor_mul, abs_of_nonneg (by positivity)]
  refine ⟨isNaN_eq_false_iff.2 h.le_inf, by rw [hinf, habs], fun hr => ?_, fun _ q hq => ?_, fun _ q hq hne htie => ?_⟩
  · have hpos : 0 < y / 2 ^ 1074 := lt_of_lt_of_le (sub_pos.2 (pow_lt_pow_right₀ one_lt_two (by decide))) (hinf.1 hr)
    rw [hsign]
    cases negative <;> simp [hpos.not_gt, hpos]
  · calc |((ratValue r : ℚ) : ℝ) - signFactor negative * (y / 2 ^ 1074)|
        = |(units r : ℝ) - y| / 2 ^ 1074 := abs_ratValue_sub_of_sign_eq r negative y hsign
      _ ≤ |(units q : ℝ) - y| / 2 ^ 1074 := by
        gcongr ?_ / _
        exact h.abs_sub_le (isFinite_iff_magnitude.1 hq).le
      _ ≤ |((ratValue q : ℚ) : ℝ) - signFactor negative * (y / 2 ^ 1074)| := abs_units_sub_le q negative hy
  · exact getLsbD_zero_eq_false_iff.2 (h.even_of_value_tie hy hsign hq hne htie)

theorem NearestMagnitude.rounded_signed (h : NearestMagnitude y m) (hy : 0 ≤ y) {negative : Bool} {x : ℝ}
    (hx : x = signFactor negative * (y / 2 ^ 1074)) :
    RoundedOnce x (withSign negative m) ∧ f64Sign (withSign negative m) = negative := by
  rw [hx]
  exact ⟨h.roundedOnce hy negative, f64Sign_withSign negative h.lt⟩

end RoundedOnce

end Sys2Proof.Machine
end

section
/-! The operations `fadd`, `fsub`, `fmul`, `fdiv` and `fsqrt` (spec/42_arithmetic.md R90, R92), case by case: what each
answers on NaN, infinite, zero and finite operands, and that every finite case is the exact result rounded once. -/

namespace Sys2Proof.Machine

/-! ## Infinities and zeros by the operands' signs -/

theorem withSign_bne_inf (s t : Bool) :
    withSign (s != t) infMagnitude = if s = t then 0x7FF0000000000000#64 else 0xFFF0000000000000#64 := by
  cases s <;> cases t <;> rfl

theorem withSign_bne_zero (s t : Bool) :
    withSign (s != t) 0 = if s = t then 0x0000000000000000#64 else 0x8000000000000000#64 := by
  cases s <;> cases t <;> rfl

/-! ## `fadd` and `fsub` -/

section Sum

variable {a b : F64}

theorem fadd_of_nan (h : isNaN a = true ∨ isNaN b = true) : fadd a b = .nan :=
  if_pos (Bool.or_eq_true_iff.2 h)

theorem fadd_inf_left (ha : isInf a = true) (hb : isNaN b = false) :
    fadd a b = if isInf b && f64Sign a != f64Sign b then .nan else .value a := by
  simp [fadd, isNaN_of_isInf ha, hb, ha]

theorem fadd_inf_right (ha : isFinite a = true) (hb : isInf b = true) : fadd a b = .value b := by
  simp [fadd, isNaN_of_isFinite ha, isNaN_of_isInf hb, isInf_of_isFinite ha, hb]

theorem fadd_of_isFinite (ha : isFinite a = true) (hb : isFinite b = true) :
    fadd a b = if signedUnits a + signedUnits b = 0 then .value (withSign (f64Sign a && f64Sign b) 0)
      else .value (withSign (decide (signedUnits a + signedUnits b < 0))
        (roundRatio (signedUnits a + signedUnits b).natAbs 1)) := by
  simp [fadd, isNaN_of_isFinite ha, isNaN_of_isFinite hb, isInf_of_isFinite ha, isInf_of_isFinite hb]

theorem ratValue_add (a b : F64) : ratValue a + ratValue b = (signedUnits a + signedUnits b : ℤ) / 2 ^ 1074 := by
  rw [ratValue, ratValue, ← add_div, Int.cast_add]

theorem ratValue_add_eq_zero_iff (a b : F64) : ratValue a + ratValue b = 0 ↔ signedUnits a + signedUnits b = 0 := by
  rw [ratValue_add, div_eq_zero_iff, or_iff_left (by positivity), Int.cast_eq_zero]

theorem intCast_eq_signFactor_mul_natAbs (n : ℤ) : (n : ℝ) = signFactor (decide (n < 0)) * n.natAbs := by
  rw [Nat.cast_natAbs]
  rcases lt_or_ge n 0 with h | h
  · simp [h, abs_of_neg h]
  · simp [not_lt.2 h, abs_of_nonneg h]

/-- The sum of finite values is the exact sum rounded once; an exact zero sum is `-0.0` for two negative addends
only. -/
theorem fadd_rounded (ha : isFinite a = true) (hb : isFinite b = true) :
    ∃ r, fadd a b = .value r ∧ RoundedOnce ((ratValue a + ratValue b : ℚ) : ℝ) r ∧
      (ratValue a + ratValue b = 0 → f64Sign r = (f64Sign a && f64Sign b)) := by
  rw [fadd_of_isFinite ha hb, ratValue_add_eq_zero_iff, ratValue_add]
  generalize signedUnits a + signedUnits b = n
  by_cases hn : n = 0
  · subst hn
    rw [if_pos rfl]
    refine ⟨_, rfl, ?_, fun _ => f64Sign_withSign _ (by decide)⟩
    simpa using nearestMagnitude_zero.roundedOnce le_rfl (f64Sign a && f64Sign b)
  · rw [if_neg hn]
    refine ⟨_, rfl, ?_, fun h => absurd h hn⟩
    have hround := (roundRatio_nearest n.natAbs one_pos).roundedOnce (by positivity) (decide (n < 0))
    rw [Nat.cast_one, div_one, ← mul_div_assoc, ← intCast_eq_signFactor_mul_natAbs] at hround
    simpa using hround

/-- The difference of finite values is the exact difference rounded once. -/
theorem fsub_rounded (ha : isFinite a = true) (hb : isFinite b = true) :
    ∃ r, fsub a b = .value r ∧ RoundedOnce ((ratValue a - ratValue b : ℚ) : ℝ) r ∧
      (ratValue a - ratValue b = 0 → f64Sign r = (f64Sign a && !f64Sign b)) := by
  have h := fadd_rounded ha (b := fneg b) (by rwa [isFinite_fneg])
  rwa [ratValue_fneg, ← sub_eq_add_neg, f64Sign_fneg] at h

theorem fadd_fneg_self (ha : isFinite a = true) : fadd a (fneg a) = .value 0x0000000000000000#64 := by
  rw [fadd_of_isFinite ha (by rwa [isFinite_fneg]), signedUnits_fneg, add_neg_cancel, if_pos rfl, f64Sign_fneg,
    Bool.and_not_self]
  rfl

end Sum

/-! ## `fmul` -/

section Product

variable {a b : F64}

theorem fmul_of_nan (h : isNaN a = true ∨ isNaN b = true) : fmul a b = .nan :=
  if_pos (Bool.or_eq_true_iff.2 h)

theorem fmul_comm (a b : F64) : fmul a b = fmul b a := by
  simp only [fmul, Bool.or_comm (isNaN a), Bool.or_comm (isInf a), Bool.or_comm (isZero a), mul_comm (units a),
    bne_comm (a := f64Sign a)]

theorem fmul_zero_inf (ha : isZero a = true) (hb : isInf b = true) : fmul a b = .nan := by
  simp [fmul, isNaN_of_isFinite (isFinite_of_isZero ha), isNaN_of_isInf hb, ha, hb]

theorem fmul_inf_left (ha : isInf a = true) (hb : isNaN b = false) (hb0 : isZero b = false) :
    fmul a b = .value (withSign (f64Sign a != f64Sign b) infMagnitude) := by
  simp [fmul, isNaN_of_isInf ha, hb, ha, hb0, isZero_of_isInf ha]

theorem fmul_of_isFinite (ha : isFinite a = true) (hb : isFinite b = true) :
    fmul a b = .value (withSign (f64Sign a != f64Sign b) (roundRatio (units a * units b) (2 ^ 1074))) := by
  simp [-Nat.reducePow, fmul, isNaN_of_isFinite ha, isNaN_of_isFinite hb, isInf_of_isFinite ha, isInf_of_isFinite hb]

/-- The exact product: under the exclusive-or of the signs, the product of the units scaled back to units. -/
theorem ratValue_mul_cast (a b : F64) : ((ratValue a * ratValue b : ℚ) : ℝ) =
    signFactor (f64Sign a != f64Sign b) * (((units a * units b : ℕ) : ℝ) / ((2 ^ 1074 : ℕ) : ℝ) / 2 ^ 1074) := by
  rw [Rat.cast_mul, ratValue_cast, ratValue_cast, signFactor_bne, Nat.cast_mul, natCast_scale]
  generalize (2 : ℝ) ^ 1074 = scale
  ring

/-- The product of finite values is the exact product rounded once, under the exclusive-or of their signs. -/
theorem fmul_rounded (ha : isFinite a = true) (hb : isFinite b = true) :
    ∃ r, fmul a b = .value r ∧ RoundedOnce ((ratValue a * ratValue b : ℚ) : ℝ) r ∧
      f64Sign r = (f64Sign a != f64Sign b) := by
  have hnear := roundRatio_nearest (units a * units b) (d := 2 ^ 1074) (by positivity)
  exact ⟨_, fmul_of_isFinite ha hb, hnear.rounded_signed (by positivity) (ratValue_mul_cast a b)⟩

end Product

/-! ## `fdiv` -/

section Quotient

variable {a b : F64}

theorem fdiv_of_nan (h : isNaN a = true ∨ isNaN b = true) : fdiv a b = .nan :=
  if_pos (Bool.or_eq_true_iff.2 h)

theorem fdiv_inf_inf (ha : isInf a = true) (hb : isInf b = true) : fdiv a b = .nan := by
  simp [fdiv, isNaN_of_isInf ha, isNaN_of_isInf hb, ha, hb]

theorem fdiv_inf_left (ha : isInf a = true) (hb : isFinite b = true) :
    fdiv a b = .value (withSign (f64Sign a != f64Sign b) infMagnitude) := by
  simp [fdiv, isNaN_of_isInf ha, isNaN_of_isFinite hb, ha, isInf_of_isFinite hb]

theorem fdiv_inf_right (ha : isFinite a = true) (hb : isInf b = true) :
    fdiv a b = .value (withSign (f64Sign a != f64Sign b) 0) := by
  simp [fdiv, isNaN_of_isFinite ha, isNaN_of_isInf hb, isInf_of_isFinite ha, hb]

theorem fdiv_of_isZero (ha : isFinite a = true) (hb : isZero b = true) :
    fdiv a b = if isZero a then .nan else .value (withSign (f64Sign a != f64Sign b) infMagnitude) := by
  have hbfin := isFinite_of_isZero hb
  simp [fdiv, isNaN_of_isFinite ha, isNaN_of_isFinite hbfin, isInf_of_isFinite ha, isInf_of_isFinite hbfin, hb]

theorem fdiv_nonzero_zero (ha : isFinite a = true) (ha0 : isZero a = false) (hb : isZero b = true) :
    fdiv a b = .value (if f64Sign a = f64Sign b then 0x7FF0000000000000#64 else 0xFFF0000000000000#64) := by
  rw [fdiv_of_isZero ha hb, ha0, withSign_bne_inf]
  rfl

theorem fdiv_of_isFinite (ha : isFinite a = true) (hb : isFinite b = true) (hb0 : isZero b = false) :
    fdiv a b = .value (withSign (f64Sign a != f64Sign b) (roundRatio (units a * 2 ^ 1074) (units b))) := by
  simp [-Nat.reducePow, fdiv, isNaN_of_isFinite ha, isNaN_of_isFinite hb, isInf_of_isFinite ha, isInf_of_isFinite hb,
    hb0]

theorem units_pos_of_not_isZero {v : F64} (h : isZero v = false) : 0 < units v :=
  Nat.pos_of_ne_zero fun hu => Bool.false_ne_true (h.symm.trans (units_eq_zero_iff.1 hu))

/-- The exact quotient: under the exclusive-or of the signs, the quotient of the units scaled back to units. -/
theorem ratValue_div_cast (a : F64) (hb0 : isZero b = false) : ((ratValue a / ratValue b : ℚ) : ℝ) =
    signFactor (f64Sign a != f64Sign b) * (((units a * 2 ^ 1074 : ℕ) : ℝ) / (units b : ℝ) / 2 ^ 1074) := by
  have hu : (units b : ℝ) ≠ 0 := Nat.cast_ne_zero.2 (units_pos_of_not_isZero hb0).ne'
  rw [Rat.cast_div, ratValue_cast, ratValue_cast, signFactor_bne, Nat.cast_mul, natCast_scale]
  have hscale : (2 : ℝ) ^ 1074 ≠ 0 := by positivity
  generalize (2 : ℝ) ^ 1074 = scale at hscale ⊢
  cases f64Sign b <;> simp <;> field_simp

/-- The quotient of finite values, the divisor not a zero, is the exact quotient rounded once, under the exclusive-or of
their signs. -/
theorem fdiv_rounded (ha : isFinite a = true) (hb : isFinite b = true) (hb0 : isZero b = false) :
    ∃ r, fdiv a b = .value r ∧ RoundedOnce ((ratValue a / ratValue b : ℚ) : ℝ) r ∧
      f64Sign r = (f64Sign a != f64Sign b) := by
  have hnear := roundRatio_nearest (units a * 2 ^ 1074) (units_pos_of_not_isZero hb0)
  exact ⟨_, fdiv_of_isFinite ha hb hb0, hnear.rounded_signed (by positivity) (ratValue_div_cast a hb0)⟩

end Quotient

/-! ## `fsqrt` -/

section Root

variable {a : F64}

theorem fsqrt_of_nan (h : isNaN a = true) : fsqrt a = .nan := if_pos h

theorem fsqrt_of_isZero (h : isZero a = true) : fsqrt a = .value a := by
  simp [fsqrt, isNaN_of_isFinite (isFinite_of_isZero h), h]

theorem fsqrt_of_neg (hn : isNaN a = false) (h : signedUnits a < 0) : fsqrt a = .nan := by
  have hsign : f64Sign a = true := by
    by_contra hs
    rw [signedUnits, if_neg hs] at h
    omega
  have hzero : isZero a = false := Bool.eq_false_iff.2 fun hz => by
    rw [signedUnits, units_eq_zero_iff.2 hz] at h
    simp at h
  simp [fsqrt, hn, hzero, hsign]

theorem fsqrt_of_pos (hfin : isFinite a = true) (h0 : isZero a = false) (hsign : f64Sign a = false) :
    fsqrt a = .value (withSign false (roundRoot (units a * 2 ^ 1074))) := by
  simp [-Nat.reducePow, fsqrt, isNaN_of_isFinite hfin, isInf_of_isFinite hfin, h0, hsign]

theorem f64Sign_eq_false_of_nonneg (h0 : isZero a = false) (h : 0 ≤ ratValue a) : f64Sign a = false := by
  have hu : (0 : ℚ) < units a := Nat.cast_pos.2 (units_pos_of_not_isZero h0)
  refine Bool.eq_false_iff.2 fun hs => h.not_gt ?_
  rw [ratValue, signedUnits, if_pos hs, Int.cast_neg, Int.cast_natCast]
  exact div_neg_of_neg_of_pos (neg_neg_of_pos hu) (by positivity)

/-- Two scales make one under the root: `√(u / 2^1074)` is `√(u * 2^1074)` units. -/
theorem sqrt_div_scale (u : ℝ) : √(u / 2 ^ 1074) = √(u * 2 ^ 1074) / 2 ^ 1074 := by
  have hscale : (0 : ℝ) < 2 ^ 1074 := by positivity
  generalize (2 : ℝ) ^ 1074 = scale at hscale ⊢
  have hu : u / scale = u * scale / scale ^ 2 := by field_simp
  rw [hu, Real.sqrt_div' _ (sq_nonneg scale), Real.sqrt_sq hscale.le]

/-- The root of a finite value that is not negative is the exact root rounded once; a zero is its own. -/
theorem fsqrt_rounded (hfin : isFinite a = true) (h : 0 ≤ ratValue a) :
    ∃ r, fsqrt a = .value r ∧ RoundedOnce (√((ratValue a : ℚ) : ℝ)) r := by
  cases h0 : isZero a with
  | true =>
    refine ⟨a, fsqrt_of_isZero h0, ?_⟩
    have hround := nearestMagnitude_zero.roundedOnce le_rfl (f64Sign a)
    have ha : withSign (f64Sign a) 0 = a := by rw [← isZero_iff_magnitude.1 h0, withSign_sign_magnitude]
    rw [ha] at hround
    simpa [ratValue_cast, units_eq_zero_iff.2 h0] using hround
  | false =>
    have hsign := f64Sign_eq_false_of_nonneg h0 h
    refine ⟨_, fsqrt_of_pos hfin h0 hsign, ?_⟩
    have hround := (roundRoot_nearest (units a * 2 ^ 1074)).roundedOnce (Real.sqrt_nonneg _) false
    rw [Nat.cast_mul, natCast_scale, ← sqrt_div_scale, signFactor_false, one_mul] at hround
    rwa [ratValue_cast, hsign, signFactor_false, one_mul]

end Root

/-! ## Overflow -/

theorem eq_withSign_inf_of_rounded {x : ℝ} {r : F64} (h : RoundedOnce x r) (hx : (2 : ℝ) ^ 1024 - 2 ^ 970 ≤ |x|) :
    r = withSign (decide (x < 0)) infMagnitude := by
  have hinf := h.overflows.2 hx
  have hsign : f64Sign r = decide (x < 0) := by rw [Bool.eq_iff_iff, decide_eq_true_eq, h.infiniteSign hinf]
  rw [← hsign, ← isInf_iff_magnitude.1 hinf, withSign_sign_magnitude]

/-- An operation that rounds its exact result `x` once overflows to the infinity of its sign. -/
theorem overflow_of_rounded {result : FResult} {x : ℚ} {sign : F64 → Prop}
    (h : ∃ r, result = .value r ∧ RoundedOnce (x : ℝ) r ∧ sign r) :
    (2 ^ 1024 - 2 ^ 970 ≤ x → result = .value 0x7FF0000000000000#64) ∧
    (x ≤ -(2 ^ 1024 - 2 ^ 970) → result = .value 0xFFF0000000000000#64) := by
  obtain ⟨r, hr, hround, -⟩ := h
  have hpos : (0 : ℝ) < 2 ^ 1024 - 2 ^ 970 := sub_pos.2 (pow_lt_pow_right₀ one_lt_two (by decide))
  constructor <;> intro hx
  · have hx' : (2 : ℝ) ^ 1024 - 2 ^ 970 ≤ x := by exact_mod_cast hx
    rw [hr, eq_withSign_inf_of_rounded hround (hx'.trans (le_abs_self _)), decide_eq_false (hpos.trans_le hx').not_gt]
    rfl
  · have hx' : (x : ℝ) ≤ -(2 ^ 1024 - 2 ^ 970) := by exact_mod_cast hx
    rw [hr, eq_withSign_inf_of_rounded hround ((le_neg_of_le_neg hx').trans (neg_le_abs _)),
      decide_eq_true (hx'.trans_lt (neg_neg_of_pos hpos))]
    rfl

end Sys2Proof.Machine

open Sys2Proof Sys2Proof.Machine

/-- Settles O30. -/
theorem sumsAreRoundedOnce : Obligations.SumsAreRoundedOnce :=
  fun _ _ ha hb => ⟨fadd_rounded ha hb, fsub_rounded ha hb⟩

/-- Settles O31. -/
theorem productsAndQuotientsAreRoundedOnce : Obligations.ProductsAndQuotientsAreRoundedOnce :=
  fun _ _ ha hb => ⟨fmul_rounded ha hb, fdiv_rounded ha hb⟩

/-- Settles O32. -/
theorem squareRootIsRoundedOnce : Obligations.SquareRootIsRoundedOnce :=
  fun _ => fsqrt_rounded

/-- Settles O59. -/
theorem infiniteOperandsFollowIeee : Obligations.InfiniteOperandsFollowIeee := by
  intro a b ha
  have hneg : isInf (fneg a) = true := by rwa [isInf_fneg]
  refine ⟨fun hb => ⟨?_, fadd_inf_right hb ha, ?_, fadd_inf_right hb hneg⟩, ?_, ?_, fun hn hz => ⟨?_, ?_⟩,
    fun hb => ⟨?_, ?_⟩⟩
  · rw [fadd_inf_left ha (isNaN_of_isFinite hb), isInf_of_isFinite hb]
    rfl
  · have hb' : isFinite (fneg b) = true := by rwa [isFinite_fneg]
    rw [fsub, fadd_inf_left ha (isNaN_of_isFinite hb'), isInf_of_isFinite hb']
    rfl
  · simp [fadd_inf_left ha (isNaN_of_isInf ha)]
  · simp [fsub, fadd_inf_left ha (b := fneg (fneg a)) (by simpa using isNaN_of_isInf ha)]
  · rw [fmul_inf_left ha hn hz, withSign_bne_inf]
  · rw [fmul_comm, fmul_inf_left ha hn hz, withSign_bne_inf]
  · rw [fdiv_inf_left ha hb, withSign_bne_inf]
  · rw [fdiv_inf_right hb ha, bne_comm, withSign_bne_zero]

/-- Settles O33. -/
theorem defaultResultsAtTheCorners : Obligations.DefaultResultsAtTheCorners := by
  refine ⟨fun p hfin h0 hsign => ?_, fun a b ha hb => ?_, fun a b => fdiv_inf_inf, fun a b ha hb => ?_,
    by decide, by decide, by decide, by decide, fun x => fsqrt_of_neg, by decide, by decide, by decide,
    fun a b hn => ⟨fadd_of_nan hn, fadd_of_nan (by rwa [isNaN_fneg]), fmul_of_nan hn, fdiv_of_nan hn⟩,
    fun a => fsqrt_of_nan, fun x hx => ⟨fadd_fneg_self hx, fadd_fneg_self hx⟩, by decide, fun a b ha hb => ?_,
    isNaN_nanBits, fun w => exists_nanBits_eq⟩
  · have hneg : isFinite (fneg p) = true := by rwa [isFinite_fneg]
    have hneg0 : isZero (fneg p) = false := by rwa [isZero_fneg]
    have hposZero : isZero 0x0000000000000000#64 = true := by decide
    have hnegZero : isZero 0x8000000000000000#64 = true := by decide
    rw [fdiv_nonzero_zero hfin h0 hposZero, fdiv_nonzero_zero hneg hneg0 hnegZero,
      fdiv_nonzero_zero hfin h0 hnegZero, fdiv_nonzero_zero hneg hneg0 hposZero, f64Sign_fneg, hsign]
    decide
  · rw [fdiv_of_isZero (isFinite_of_isZero ha) hb, if_pos ha]
  · exact ⟨fmul_zero_inf ha hb, (fmul_comm b a).trans (fmul_zero_inf ha hb)⟩
  · obtain ⟨haddPos, haddNeg⟩ := overflow_of_rounded (fadd_rounded ha hb)
    obtain ⟨hsubPos, hsubNeg⟩ := overflow_of_rounded (fsub_rounded ha hb)
    obtain ⟨hmulPos, hmulNeg⟩ := overflow_of_rounded (fmul_rounded ha hb)
    have hdiv (hb0 : isZero b = false) := overflow_of_rounded (fdiv_rounded ha hb hb0)
    exact ⟨haddPos, haddNeg, hsubPos, hsubNeg, hmulPos, hmulNeg, fun hb0 => (hdiv hb0).1, fun hb0 => (hdiv hb0).2⟩

end

section
/-! The arithmetic instructions (spec/42_arithmetic.md R93 to R98): each pops its operands and pushes the result of its
operation, a NaN drawn from `NAN_DRAW` where the operation gives NaN. -/

namespace Sys2Proof.Machine

/-- A stack within its capacity has room for a result once a cell is popped. -/
theorem not_osFull_of_popped {s : State} {f : Format} {rest : List F64} (hcap : s.osWithinCap = true)
    (hpop : rest.length < s.os.length) : ((s.past f).setOs rest).osFull = false :=
  not_full_of_withinCap_succ (withinCap_of_le hpop hcap)

theorem exec_binaryOp {i : Instr} {f : F64 → F64 → FResult} (h : (i, f) ∈ binaryOps) :
    ∃ op, ∀ s, exec i s = binaryArith op f s := by
  simp only [binaryOps, List.mem_cons, Prod.mk.injEq, List.not_mem_nil, or_false] at h
  rcases h with ⟨rfl, rfl⟩ | ⟨rfl, rfl⟩ | ⟨rfl, rfl⟩ | ⟨rfl, rfl⟩
  exacts [⟨.add, fun _ => rfl⟩, ⟨.sub, fun _ => rfl⟩, ⟨.mul, fun _ => rfl⟩, ⟨.div, fun _ => rfl⟩]

theorem exec_sqrt_eq (s : State) :
    exec .sqrt s = popOs (s.past .n) fun x s' => pushResult .sqrt [x] (fsqrt x) s' := rfl

/-- What an arithmetic instruction answers once its operands are popped: its result is pushed, some NaN with the count
of draws raised where there is no value. -/
theorem pushResult_of_popped {op : ArithOp} {operands rest : List F64} {result : FResult} {s : State}
    (hcap : s.osWithinCap = true) (hpop : rest.length < s.os.length) :
    (∀ v, result = .value v → pushResult op operands result ((s.past .n).setOs rest) =
      .next { s with os := v :: rest, pc := s.pc + 1#32 }) ∧
    (result = .nan → ∃ w : F64, isNaN w = true ∧ pushResult op operands result ((s.past .n).setOs rest) =
      .next { s with os := w :: rest, pc := s.pc + 1#32, nanDraws := s.nanDraws + 1 }) := by
  have hroom := not_osFull_of_popped (f := .n) hcap hpop
  exact ⟨fun v hv => pushResult_next.2 ⟨hroom, .inl ⟨v, hv, rfl⟩⟩,
    fun hnan => ⟨_, isNaN_nanBits _, pushResult_next.2 ⟨hroom, .inr ⟨hnan, rfl⟩⟩⟩⟩

end Sys2Proof.Machine

open Sys2Proof Sys2Proof.Machine

/-- Settles O28. -/
theorem binaryArithmeticPopsTwoPushesOne : Obligations.BinaryArithmeticPopsTwoPushesOne := by
  intro s lhs rhs rest i f hi hos hcap
  obtain ⟨op, hexec⟩ := exec_binaryOp hi
  have hpop : exec i s = pushResult op [lhs, rhs] (f lhs rhs) ((s.past .n).setOs rest) := by
    rw [hexec, binaryArith, pop2Os, State.past_os, hos]
  rw [hpop]
  exact pushResult_of_popped hcap (by simp [hos])

/-- Settles O29. -/
theorem sqrtReplacesTheTop : Obligations.SqrtReplacesTheTop := by
  intro s x rest hos hcap
  have hpop : exec .sqrt s = pushResult .sqrt [x] (fsqrt x) ((s.past .n).setOs rest) :=
    (exec_sqrt_eq s).trans (popOs_of_cons (s := s.past .n) hos)
  rw [hpop]
  exact pushResult_of_popped hcap (by simp [hos])

end

section
/-! The comparisons (spec/43_control_transfer.md R105): the plain ones on finite, infinite and NaN operands, then the
equality with its tolerance (R105; D23) and the ordered predicates (D12). -/

namespace Sys2Proof.Machine

/-! ## `fneg` and `fabs` -/

theorem fneg_eq_iff {v w : F64} : fneg v = w ↔ v = fneg w := by
  have hself (x : F64) : fneg (fneg x) = x := by rw [fneg, fneg, BitVec.xor_assoc, BitVec.xor_self, BitVec.xor_zero]
  constructor <;> rintro rfl
  · exact (hself v).symm
  · exact hself w

@[simp] theorem f64Sign_fabs (v : F64) : f64Sign (fabs v) = false := by
  have hbit : (0x7FFFFFFFFFFFFFFF : F64).getLsbD 63 = false := by decide
  rw [f64Sign, fabs, BitVec.getLsbD_and, hbit, Bool.and_false]

@[simp] theorem magnitude_fabs (v : F64) : magnitude (fabs v) = magnitude v := by
  have hmask : (0x7FFFFFFFFFFFFFFF : F64).toNat = 2 ^ 63 - 1 := by decide
  rw [magnitude, fabs, BitVec.toNat_and, hmask, Nat.and_two_pow_sub_one_eq_mod, Nat.mod_mod, magnitude]

@[simp] theorem isNaN_fabs (v : F64) : isNaN (fabs v) = isNaN v := by
  rw [Bool.eq_iff_iff, isNaN_iff_magnitude, isNaN_iff_magnitude, magnitude_fabs]

theorem fabs_of_isInf {v : F64} (h : isInf v = true) : fabs v = 0x7FF0000000000000#64 := by
  rw [← withSign_sign_magnitude (fabs v), f64Sign_fabs, magnitude_fabs, isInf_iff_magnitude.1 h]
  rfl

/-- Clearing the sign bit takes the absolute value. -/
@[simp] theorem signedUnits_fabs (v : F64) : signedUnits (fabs v) = |signedUnits v| := by
  rw [signedUnits, signedUnits, f64Sign_fabs, units, magnitude_fabs, units]
  cases f64Sign v <;> simp

@[simp] theorem ratValue_fabs (v : F64) : ratValue (fabs v) = |ratValue v| := by
  rw [ratValue, ratValue, signedUnits_fabs, Int.cast_abs, abs_div, abs_of_pos (show (0 : ℚ) < 2 ^ 1074 by positivity)]

/-! ## The plain comparisons -/

section Comparisons

variable {a b : F64}

theorem ordered_eq_true_iff : ordered a b = true ↔ isNaN a = false ∧ isNaN b = false := by simp [ordered]

theorem ordered_comm (a b : F64) : ordered a b = ordered b a := Bool.and_comm ..

theorem ordered_of_nan (h : isNaN a = true ∨ isNaN b = true) : ordered a b = false := by
  rcases h with h | h <;> simp [ordered, h]

theorem flt_iff_signedUnits (ha : isNaN a = false) (hb : isNaN b = false) :
    flt a b = true ↔ signedUnits a < signedUnits b := by
  rw [flt, ordered_eq_true_iff.2 ⟨ha, hb⟩, Bool.true_and, decide_eq_true_eq]

theorem fle_iff_signedUnits (ha : isNaN a = false) (hb : isNaN b = false) :
    fle a b = true ↔ signedUnits a ≤ signedUnits b := by
  rw [fle, ordered_eq_true_iff.2 ⟨ha, hb⟩, Bool.true_and, decide_eq_true_eq]

/-- Patterns compare as their exact values do; an infinity counts as `±2^1024`. -/
theorem flt_iff_ratValue (ha : isNaN a = false) (hb : isNaN b = false) :
    flt a b = true ↔ ratValue a < ratValue b := by
  rw [flt_iff_signedUnits ha hb, ratValue, ratValue, div_lt_div_iff_of_pos_right (by positivity), Int.cast_lt]

theorem fle_iff_ratValue (ha : isNaN a = false) (hb : isNaN b = false) :
    fle a b = true ↔ ratValue a ≤ ratValue b := by
  rw [fle_iff_signedUnits ha hb, ratValue, ratValue, div_le_div_iff_of_pos_right (by positivity), Int.cast_le]

theorem fgt_eq_flt (a b : F64) : fgt a b = flt b a := by rw [fgt, flt, ordered_comm]

theorem fge_eq_fle (a b : F64) : fge a b = fle b a := by rw [fge, fle, ordered_comm]

theorem comparisons_of_nan (h : isNaN a = true ∨ isNaN b = true) :
    flt a b = false ∧ fle a b = false ∧ fgt a b = false ∧ fge a b = false := by
  simp [flt, fle, fgt, fge, ordered_of_nan h]

theorem flt_fneg_fneg (a b : F64) : flt (fneg a) (fneg b) = flt b a := by
  rw [flt, flt, ordered, isNaN_fneg, isNaN_fneg, ← ordered, ordered_comm, signedUnits_fneg, signedUnits_fneg]
  simp only [neg_lt_neg_iff]

theorem fle_fneg_fneg (a b : F64) : fle (fneg a) (fneg b) = fle b a := by
  rw [fle, fle, ordered, isNaN_fneg, isNaN_fneg, ← ordered, ordered_comm, signedUnits_fneg, signedUnits_fneg]
  simp only [neg_le_neg_iff]

/-! ## The infinities at the two ends (log 17) -/

theorem flt_posInf_iff (ha : isNaN a = false) :
    flt a 0x7FF0000000000000#64 = true ↔ a ≠ 0x7FF0000000000000#64 := by
  have hinf : (0x7FF0000000000000#64 : F64) = withSign false infMagnitude := by decide
  constructor
  · rintro h rfl
    exact lt_irrefl _ ((flt_iff_signedUnits ha ha).1 h)
  · intro hne
    rw [flt_iff_signedUnits ha (by decide), hinf, signedUnits, signedUnits, f64Sign_withSign false (by decide),
      units, units, magnitude_withSign false (by decide)]
    cases hsign : f64Sign a with
    | true =>
      have hpos : magUnits 0 < magUnits infMagnitude := magUnits_strictMono (by decide)
      simp only [if_true, Bool.false_eq_true, if_false]
      omega
    | false =>
      have hmag : magnitude a ≠ infMagnitude := fun h => hne (by
        rw [hinf, ← withSign_sign_magnitude a, hsign, h])
      exact Int.ofNat_lt.2 (magUnits_strictMono (lt_of_le_of_ne (isNaN_eq_false_iff.1 ha) hmag))

theorem fle_posInf (ha : isNaN a = false) : fle a 0x7FF0000000000000#64 = true := by
  by_cases h : a = 0x7FF0000000000000#64
  · subst h
    exact (fle_iff_signedUnits ha ha).2 le_rfl
  · rw [fle_iff_signedUnits ha (by decide)]
    exact ((flt_iff_signedUnits ha (by decide)).1 ((flt_posInf_iff ha).2 h)).le

theorem flt_of_posInf_left (ha : isNaN a = false) : flt 0x7FF0000000000000#64 a = false := by
  have hle := (fle_iff_signedUnits ha (by decide)).1 (fle_posInf ha)
  exact Bool.eq_false_iff.2 fun h => hle.not_gt ((flt_iff_signedUnits (by decide) ha).1 h)

theorem negInf_eq_fneg : (0xFFF0000000000000#64 : F64) = fneg 0x7FF0000000000000#64 := by decide

theorem flt_negInf_iff (ha : isNaN a = false) :
    flt 0xFFF0000000000000#64 a = true ↔ a ≠ 0xFFF0000000000000#64 := by
  have h := flt_posInf_iff (a := fneg a) (by rwa [isNaN_fneg])
  rwa [ne_eq, fneg_eq_iff, ← negInf_eq_fneg, ← flt_fneg_fneg, ← negInf_eq_fneg, fneg_eq_iff.2 rfl] at h

theorem fle_negInf (ha : isNaN a = false) : fle 0xFFF0000000000000#64 a = true := by
  have h := fle_posInf (a := fneg a) (by rwa [isNaN_fneg])
  rwa [← fle_fneg_fneg, ← negInf_eq_fneg, fneg_eq_iff.2 rfl] at h

end Comparisons

/-! ## Equality within the tolerance -/

/-- `10^-9` lies `2^1074 / 10^9` units from zero, and `eps` is the magnitude nearest to that. -/
theorem eps_rounded : RoundedOnce ((1 : ℝ) / 10 ^ 9) eps := by
  have hround : withSign false (roundRatio (2 ^ 1074) (10 ^ 9)) = eps := by decide +kernel
  have hnearest := roundRatio_nearest (2 ^ 1074) (d := 10 ^ 9) (by positivity)
  have hunits : (1 : ℝ) / 10 ^ 9 = signFactor false * (((2 ^ 1074 : ℕ) : ℝ) / ((10 ^ 9 : ℕ) : ℝ) / 2 ^ 1074) := by
    rw [signFactor_false, one_mul, natCast_scale, Nat.cast_pow, Nat.cast_ofNat, div_right_comm,
      div_self (by positivity)]
  rw [← hround]
  exact (hnearest.rounded_signed (by positivity) hunits).1

section Equality

variable {a b d : F64}

theorem cmpEq_of_value (h : fsub a b = .value d) : cmpEq a b = flt (fabs d) eps := by rw [cmpEq, h]

/-- A difference that is NaN or an infinity is not below `EPS`. -/
theorem cmpEq_of_no_finite_difference (h : ∀ d, fsub a b = .value d → isInf d = true) : cmpEq a b = false := by
  cases hsub : fsub a b with
  | value d =>
    rw [cmpEq_of_value hsub, fabs_of_isInf (h d hsub), flt_of_posInf_left (by decide)]
  | nan => rw [cmpEq, hsub]

theorem cmpEq_and_cmpNe_of_no_finite_difference (h : ∀ d, fsub a b = .value d → isInf d = true) :
    cmpEq a b = false ∧ cmpNe a b = true := by
  rw [cmpNe, cmpEq_of_no_finite_difference h]
  exact ⟨rfl, rfl⟩

theorem fsub_of_nan (h : isNaN a = true ∨ isNaN b = true) : fsub a b = .nan :=
  fadd_of_nan (by rwa [isNaN_fneg])

/-- An infinite addend leaves no finite sum: the sum is one of the infinite addends, or NaN. -/
theorem isInf_of_fadd (h : isInf a = true ∨ isInf b = true) (hadd : fadd a b = .value d) : isInf d = true := by
  unfold fadd at hadd
  split at hadd
  · cases hadd
  · split at hadd
    · next ha =>
      split at hadd
      · cases hadd
      · cases hadd
        exact ha
    · next ha =>
      have hb : isInf b = true := h.resolve_left ha
      rw [if_pos hb] at hadd
      cases hadd
      exact hb

theorem isInf_of_fsub (h : isInf a = true ∨ isInf b = true) (hsub : fsub a b = .value d) : isInf d = true :=
  isInf_of_fadd (by rwa [isInf_fneg]) hsub

/-- A difference of finite operands beyond the midpoint above the greatest finite value is an infinity. -/
theorem isInf_of_fsub_overflow (ha : isFinite a = true) (hb : isFinite b = true)
    (hover : 2 ^ 1024 - 2 ^ 970 ≤ |ratValue a - ratValue b|) (hsub : fsub a b = .value d) : isInf d = true := by
  obtain ⟨r, hr, hround, -⟩ := fsub_rounded ha hb
  obtain rfl : r = d := FResult.value.inj (hr.symm.trans hsub)
  exact hround.overflows.2 (by exact_mod_cast hover)

end Equality

end Sys2Proof.Machine

open Sys2Proof Sys2Proof.Machine

/-- Settles O34. -/
theorem orderedComparisonsCompareValues : Obligations.OrderedComparisonsCompareValues :=
  ⟨fun _ _ ha hb =>
      ⟨flt_iff_ratValue (isNaN_of_isFinite ha) (isNaN_of_isFinite hb),
        fle_iff_ratValue (isNaN_of_isFinite ha) (isNaN_of_isFinite hb)⟩,
    fun a b => ⟨fgt_eq_flt a b, fge_eq_fle a b⟩,
    fun _ ha => ⟨fle_negInf ha, fle_posInf ha, flt_negInf_iff ha, flt_posInf_iff ha⟩,
    fun _ _ => comparisons_of_nan⟩

/-- Settles O35: wherever the rounded difference is no finite value, `eq` is false for one and the same reason. -/
theorem equalityIsWithinTheTolerance : Obligations.EqualityIsWithinTheTolerance := by
  refine ⟨eps_rounded, fun a b d _ _ hsub hd => ?_, fun _ _ => rfl, fun a b hnan => ?_, fun a b d hsub hd => ?_,
    fun a b ha hb hover => ?_, fun a b hinf => ?_, fun a b => ?_, fun _ _ => ⟨rfl, rfl, rfl, rfl⟩⟩
  · have hnan : isNaN (fabs d) = false := by rw [isNaN_fabs, isNaN_of_isFinite hd]
    rw [cmpEq_of_value hsub, flt_iff_ratValue hnan (by decide), ratValue_fabs]
  · exact cmpEq_of_no_finite_difference fun d hsub => by simp [fsub_of_nan hnan] at hsub
  · exact cmpEq_and_cmpNe_of_no_finite_difference fun r hr => FResult.value.inj (hsub.symm.trans hr) ▸ hd
  · exact cmpEq_and_cmpNe_of_no_finite_difference fun _ => isInf_of_fsub_overflow ha hb hover
  · exact cmpEq_and_cmpNe_of_no_finite_difference fun _ => isInf_of_fsub hinf
  · simp [cmpLt, cmpLe, cmpGt, cmpGe]

end

section
/-! The control transfers (spec/43_control_transfer.md R102 to R106, R113, R114): what a jump, a conditional jump,
`CALL` and `RET` answer in each case, faults included. -/

namespace Sys2Proof.Machine

/-! ## Jump targets -/

theorem State.legalTarget_eq_false_iff {s : State} {t : Int} :
    s.legalTarget t = false ↔ t < 0 ∨ (s.imageLen : Int) ≤ t := by
  rw [← Bool.not_eq_true, State.legalTarget_iff]
  omega

section Jumps

variable {s : State} {t : Int}

theorem jumpTo_of_legal (h : s.legalTarget t = true) : jumpTo t s = .next (s.setPc (BitVec.ofInt 32 t)) := if_pos h

theorem jumpTo_of_illegal (h : s.legalTarget t = false) : jumpTo t s = takeError .invalidOperation s :=
  jumpTo_next.2 (.inr ⟨h, rfl⟩)

end Jumps

/-! ## Conditional jumps -/

/-- Each of the six is `condJump` at its predicate (spec/43_control_transfer.md R107 to R112). -/
theorem exec_condJump {s : State} {c : W32 → Instr} {pred : F64 → F64 → Bool}
    (h : (c, pred) ∈ condJumps s.params.cmpOrderedEps) (d : W32) : exec (c d) s = condJump pred d s := by
  simp only [condJumps, List.mem_cons, Prod.mk.injEq, List.not_mem_nil, or_false] at h
  rcases h with ⟨rfl, rfl⟩ | ⟨rfl, rfl⟩ | ⟨rfl, rfl⟩ | ⟨rfl, rfl⟩ | ⟨rfl, rfl⟩ | ⟨rfl, rfl⟩
  all_goals rfl

section CondJump

variable {s : State} {lhs rhs : F64} {rest : List F64} {pred : F64 → F64 → Bool} {d : W32}

/-- With a target in the image the predicate alone decides, whether or not untaken targets are validated. -/
theorem condJump_of_legal (hos : s.os = rhs :: lhs :: rest) (ht : s.legalTarget (jumpTarget s.pc d) = true) :
    condJump pred d s = .next (if pred lhs rhs then ((s.past .j).setOs rest).setPc (BitVec.ofInt 32 (jumpTarget s.pc d))
      else (s.past .j).setOs rest) := by
  refine condJump_next.2 (.inr ⟨rhs, lhs, rest, hos, .inr ⟨by simp [ht], ?_⟩⟩)
  cases hp : pred lhs rhs with
  | true => exact .inl ⟨rfl, jumpTo_of_legal ht⟩
  | false => exact .inr ⟨rfl, rfl⟩

/-- A target outside the image is the error where the branch is taken or untaken targets are validated (D10). -/
theorem condJump_of_illegal (hos : s.os = rhs :: lhs :: rest) (ht : s.legalTarget (jumpTarget s.pc d) = false)
    (h : pred lhs rhs = true ∨ s.params.validateUntaken = true) :
    condJump pred d s = takeError .invalidOperation ((s.past .j).setOs rest) := by
  refine condJump_next.2 (.inr ⟨rhs, lhs, rest, hos, ?_⟩)
  cases hv : s.params.validateUntaken with
  | true => exact .inl ⟨by simp [ht], rfl⟩
  | false =>
    have hp : pred lhs rhs = true := h.resolve_right (by simp [hv])
    exact .inr ⟨rfl, .inl ⟨hp, jumpTo_of_illegal ht⟩⟩

theorem condJump_untaken (hos : s.os = rhs :: lhs :: rest) (hp : pred lhs rhs = false)
    (hv : s.params.validateUntaken = false) : condJump pred d s = .next ((s.past .j).setOs rest) :=
  condJump_next.2 (.inr ⟨rhs, lhs, rest, hos, .inr ⟨by simp [hv], .inr ⟨hp, rfl⟩⟩⟩)

end CondJump

/-! ## `CALL` and `RET` -/

section Call

variable {s : State} {d : W32}

theorem exec_call_of_full (h : s.csFull = true) : exec (.call d) s = stopUnspecified .stackOverflow (s.past .j) :=
  if_pos h

theorem exec_call_of_room (h : s.csFull = false) :
    exec (.call d) s = jumpTo (jumpTarget s.pc d) ((s.past .j).setCs ((s.past .j).pc :: s.cs)) :=
  if_neg (Bool.eq_false_iff.1 h)

/-- What `RET` pops goes into `pc` as it is (spec/43_control_transfer.md R114; D25). -/
theorem exec_ret_eq (s : State) : exec .ret s = popCs (s.past .n) fun n s' => .next (s'.setPc n) := rfl

theorem exec_ret_of_cons {n : W32} {rest : List W32} (h : s.cs = n :: rest) :
    exec .ret s = .next { s with cs := rest, pc := n } := by
  rw [exec_ret_eq]
  exact popCs_next.2 (.inr ⟨n, rest, h, rfl⟩)

theorem exec_ret_of_empty (h : s.cs = []) : exec .ret s = takeError .stackUnderflow (s.past .n) := by
  rw [exec_ret_eq]
  exact popCs_next.2 (.inl ⟨h, rfl⟩)

end Call

end Sys2Proof.Machine

open Sys2Proof Sys2Proof.Machine

/-- Settles O37. -/
theorem conditionalJumpsPopTwoAndBranch : Obligations.ConditionalJumpsPopTwoAndBranch := by
  intro s d c pred hmem
  rw [exec_condJump hmem d]
  refine ⟨fun hlen => condJump_next.2 (.inl ⟨hlen, rfl⟩), fun lhs rhs rest hos =>
    ⟨fun hlo hhi hp => ?_, fun hlo hhi hp => ?_, fun hout herr => ?_, fun _ hp hv => condJump_untaken hos hp hv⟩⟩
  · rw [condJump_of_legal hos (State.legalTarget_iff.2 ⟨hlo, hhi⟩), if_pos hp]
    rfl
  · rw [condJump_of_legal hos (State.legalTarget_iff.2 ⟨hlo, hhi⟩), if_neg (by simp [hp])]
    rfl
  · exact condJump_of_illegal hos (State.legalTarget_eq_false_iff.2 hout) herr

/-- Settles O40: `CALL` leaves the machine running only where it branched, and then the cell it pushed is the one that
`RET` pops. -/
theorem callThenRetComesBack : Obligations.CallThenRetComesBack := by
  intro s t d _ hcall hrun
  obtain ⟨-, hjump⟩ := pushCs_next.1 hcall
  obtain ⟨-, rfl⟩ | ⟨-, rfl⟩ := jumpTo_next.1 hjump
  · exact exec_ret_of_cons rfl
  · cases hrun

/-- Settles O36. -/
theorem jmpBranchesAlways : Obligations.JmpBranchesAlways :=
  ⟨fun s _ =>
    ⟨fun hlo hhi => jumpTo_of_legal (s := s.past .j) (State.legalTarget_iff.2 ⟨hlo, hhi⟩),
      fun hout => jumpTo_of_illegal (s := s.past .j) (State.legalTarget_eq_false_iff.2 hout)⟩,
    fun _ _ => rfl⟩

/-- Settles O38. -/
theorem callPushesThenBranches : Obligations.CallPushesThenBranches := by
  refine ⟨fun s d => ⟨fun hroom hlo hhi => ?_, fun hroom hout => ?_, fun hfull => exec_call_of_full hfull⟩,
    fun _ _ => rfl⟩
  · exact (exec_call_of_room hroom).trans (jumpTo_of_legal (State.legalTarget_iff.2 ⟨hlo, hhi⟩))
  · exact (exec_call_of_room hroom).trans (jumpTo_of_illegal (State.legalTarget_eq_false_iff.2 hout))

/-- Settles O39. -/
theorem retReturnsToTheSavedAddress : Obligations.RetReturnsToTheSavedAddress :=
  ⟨fun _ _ _ => exec_ret_of_cons, fun _ => exec_ret_of_empty, fun _ => rfl⟩

end

section
/-! `IN`, `OUT` and `HLT` (spec/44_io_and_halt.md R120 to R122, R126): what each answers in each case, faults included. -/

namespace Sys2Proof.Machine

section In

variable {s : State} {w : F64} {ws : List F64}

/-- The value is off the port before the push looks for room (log 20). -/
theorem exec_inp_of_cons (h : s.input = w :: ws) : exec .inp s = pushOs w ((s.past .n).setInput ws) := by
  simp only [exec, execIn, h]

theorem exec_inp_of_room (h : s.input = w :: ws) (hroom : s.osFull = false) :
    exec .inp s = .next { s with os := w :: s.os, input := ws, pc := s.pc + 1#32 } :=
  execIn_next.2 (.inl ⟨w, ws, h, hroom, rfl⟩)

theorem exec_inp_of_full (h : s.input = w :: ws) (hfull : s.osFull = true) :
    exec .inp s = stopUnspecified .stackOverflow ((s.past .n).setInput ws) :=
  (exec_inp_of_cons h).trans (pushOs_of_full hfull)

/-- The stop comes before any look at the operand stack (log 20). -/
theorem exec_inp_of_exhausted (h : s.input = []) (hclosed : s.inputClosed = true) :
    exec .inp s = stopUnspecified .inputUnavailable (s.past .n) := by
  simp only [exec, execIn, h, hclosed, if_true]

theorem exec_inp_of_blocked (h : s.input = []) (hopen : s.inputClosed = false) : exec .inp s = .next s :=
  execIn_next.2 (.inr ⟨h, hopen, rfl⟩)

end In

end Sys2Proof.Machine

open Sys2Proof Sys2Proof.Machine

/-- Settles O42. -/
theorem inTakesTheNextValue : Obligations.InTakesTheNextValue :=
  ⟨fun _ _ _ => exec_inp_of_room, fun _ _ _ => exec_inp_of_full, fun _ => exec_inp_of_exhausted⟩

/-- Settles O43: the values supplied to an empty port are the whole port, and no other piece of state has moved. -/
theorem blockedInWaitsAndResumes : Obligations.BlockedInWaitsAndResumes := by
  intro s hempty hopen
  refine ⟨exec_inp_of_blocked hempty hopen, fun w ws hroom => ?_⟩
  have hsupplied : (s.supplyInput (w :: ws)).input = w :: ws := by simp [hempty]
  exact exec_inp_of_room hsupplied hroom

/-- Settles O44. -/
theorem outSendsTheTop : Obligations.OutSendsTheTop :=
  ⟨fun _ w rest hos => execOut_next.2 (.inr ⟨w, rest, hos, rfl⟩), fun _ hos => execOut_next.2 (.inl ⟨hos, rfl⟩),
    fun _ => rfl⟩

/-- Settles O45. -/
theorem hltHaltsAndChangesNothingElse : Obligations.HltHaltsAndChangesNothingElse :=
  ⟨fun _ => exec_hlt_next.2 rfl, fun _ => rfl, rfl⟩

end

section
/-! The errors of the execute phase (spec/60_exceptions.md R131 to R135): a stack too shallow is found before any cell is
popped, an executed instruction raises three of the six kinds and no other, and the exit codes. -/

namespace Sys2Proof.Machine

/-! ## Underflow -/

section Underflow

variable {s : State} {i : Instr}

/-- The depth check of an instruction that needs one operand finds the stack empty. -/
theorem exec_of_empty {r : Reg} {v : F64} (hi : i ∈ [.out, .pop, .popR r, .popAtV v, .popAtR r, .sqrt, .dup])
    (h : s.os = []) : exec i s = takeError .stackUnderflow (s.past i.format) := by
  simp only [List.mem_cons, List.not_mem_nil, or_false] at hi
  obtain rfl | rfl | rfl | rfl | rfl | rfl | rfl := hi
  · exact execOut_next.2 (.inl ⟨h, rfl⟩)
  · exact popOs_next.2 (.inl ⟨h, rfl⟩)
  · exact exec_popR_next.2 (.inl ⟨h, rfl⟩)
  · exact popToRam_of_empty (s := s.past .i) h
  · exact popToRam_of_empty (s := s.past .r) h
  · exact (exec_sqrt_eq s).trans (popOs_next.2 (.inl ⟨h, rfl⟩))
  · exact (exec_dup_eq s).trans (popOs_next.2 (.inl ⟨h, rfl⟩))

/-- The depth check of an instruction that needs two operands finds fewer: an arithmetic one is `binaryArith` at its
operation, a jump `condJump` at its predicate. -/
theorem exec_of_fewer_than_two {d : W32}
    (hi : i ∈ [.add, .sub, .mul, .div, .jmpe d, .jmpne d, .jmpl d, .jmple d, .jmpg d, .jmpge d])
    (h : s.os.length < 2) : exec i s = takeError .stackUnderflow (s.past i.format) := by
  have harith (op : ArithOp) (f : F64 → F64 → FResult) :
      binaryArith op f s = takeError .stackUnderflow (s.past .n) := binaryArith_next.2 (.inl ⟨h, rfl⟩)
  have hjump (pred : F64 → F64 → Bool) : condJump pred d s = takeError .stackUnderflow (s.past .j) :=
    condJump_next.2 (.inl ⟨h, rfl⟩)
  simp only [List.mem_cons, List.not_mem_nil, or_false] at hi
  obtain rfl | rfl | rfl | rfl | rfl | rfl | rfl | rfl | rfl | rfl := hi
  exacts [harith _ _, harith _ _, harith _ _, harith _ _, hjump _, hjump _, hjump _, hjump _, hjump _, hjump _]

end Underflow

/-! ## The kinds an executed instruction raises -/

/-- The kinds that some instruction raises once it is decoded. -/
def executeErrors : List ErrorKind := [.invalidOperation, .stackUnderflow, .invalidRamAddress]

/-- Where the outcome is a next state in an error, its kind is one of `executeErrors`. -/
def RaisesOnlyExecuteErrors : Out → Prop
  | .next t => ∀ k, t.status = .error k → k ∈ executeErrors
  | .fault _ | .refused _ => True

namespace RaisesOnlyExecuteErrors

theorem of_takeError {k : ErrorKind} {s : State} (hk : k ∈ executeErrors) :
    RaisesOnlyExecuteErrors (takeError k s) := by
  intro k' hk'
  cases hk'
  exact hk

theorem of_underflow (s : State) : RaisesOnlyExecuteErrors (takeError .stackUnderflow s) := of_takeError (by decide)

theorem of_ite {c : Prop} [Decidable c] {o₁ o₂ : Out} (h₁ : RaisesOnlyExecuteErrors o₁)
    (h₂ : RaisesOnlyExecuteErrors o₂) : RaisesOnlyExecuteErrors (if c then o₁ else o₂) := by
  split
  · exact h₁
  · exact h₂

theorem of_popOs {s : State} {k : F64 → State → Out} (hk : ∀ w rest, RaisesOnlyExecuteErrors (k w (s.setOs rest))) :
    RaisesOnlyExecuteErrors (popOs s k) := by
  unfold popOs
  split
  · exact of_underflow s
  · exact hk _ _

theorem of_pop2Os {s : State} {k : F64 → F64 → State → Out}
    (hk : ∀ lhs rhs rest, RaisesOnlyExecuteErrors (k lhs rhs (s.setOs rest))) :
    RaisesOnlyExecuteErrors (pop2Os s k) := by
  unfold pop2Os
  split
  · exact hk _ _ _
  · exact of_underflow s
  · exact of_underflow s

theorem of_popCs {s : State} {k : W32 → State → Out} (hk : ∀ n rest, RaisesOnlyExecuteErrors (k n (s.setCs rest))) :
    RaisesOnlyExecuteErrors (popCs s k) := by
  unfold popCs
  split
  · exact of_underflow s
  · exact hk _ _

theorem of_withRamAddr {v : F64} {s : State} {k : Nat → Out} (hk : ∀ a, RaisesOnlyExecuteErrors (k a)) :
    RaisesOnlyExecuteErrors (withRamAddr v s k) := by
  unfold withRamAddr
  split
  · exact hk _
  · exact of_takeError (by decide)
  · trivial

section NotInError

variable {s : State} (hs : ∀ k, s.status ≠ .error k)
include hs

/-- A next state that has the old status is in no error. -/
theorem of_next {t : State} (ht : t.status = s.status) : RaisesOnlyExecuteErrors (.next t) :=
  fun k hk => absurd (ht.symm.trans hk) (hs k)

theorem of_pushOs (v : F64) : RaisesOnlyExecuteErrors (pushOs v s) := of_ite trivial (of_next hs rfl)

theorem of_pushResult (op : ArithOp) (xs : List F64) (r : FResult) :
    RaisesOnlyExecuteErrors (pushResult op xs r s) := by
  cases r with
  | value v => exact of_pushOs hs v
  | nan => exact of_pushOs (s := s.setNanDraws (s.nanDraws + 1)) hs _

theorem of_binaryArith (op : ArithOp) (f : F64 → F64 → FResult) : RaisesOnlyExecuteErrors (binaryArith op f s) :=
  of_pop2Os fun _ _ rest => of_pushResult (s := (s.past .n).setOs rest) hs _ _ _

theorem of_pushFromRam (v : F64) : RaisesOnlyExecuteErrors (pushFromRam v s) := of_withRamAddr fun _ => of_pushOs hs _

theorem of_popToRam (v : F64) : RaisesOnlyExecuteErrors (popToRam v s) :=
  of_popOs fun _ _ => of_withRamAddr fun _ => of_next hs rfl

theorem of_jumpTo (g : Int) : RaisesOnlyExecuteErrors (jumpTo g s) :=
  of_ite (of_next hs rfl) (of_takeError (by decide))

theorem of_condJump (pred : F64 → F64 → Bool) (d : W32) : RaisesOnlyExecuteErrors (condJump pred d s) :=
  of_pop2Os fun _ _ rest =>
    of_ite (of_takeError (by decide)) (of_ite (of_jumpTo (s := (s.past .j).setOs rest) hs _) (of_next hs rfl))

theorem of_execIn : RaisesOnlyExecuteErrors (execIn s) := by
  unfold execIn
  split
  · next w rest _ => exact of_pushOs (s := (s.past .n).setInput rest) hs w
  · exact of_ite trivial (of_next hs rfl)

theorem of_execCall (d : W32) : RaisesOnlyExecuteErrors (execCall d s) :=
  of_ite trivial (of_jumpTo (s := (s.past .j).setCs ((s.past .j).pc :: s.cs)) hs _)

end NotInError

end RaisesOnlyExecuteErrors

open RaisesOnlyExecuteErrors in
/-- An instruction that a machine in no error executes raises `executeErrors` only (spec/60_exceptions.md R131, R133,
R134). -/
theorem exec_raisesOnlyExecuteErrors (i : Instr) {s : State} (hs : ∀ k, s.status ≠ .error k) :
    RaisesOnlyExecuteErrors (exec i s) := by
  cases i with
  | inp => exact of_execIn hs
  | out => exact of_popOs (k := fun w u => .next (u.emit w)) fun _ _ => of_next hs rfl
  | pop => exact of_popOs (k := fun _ u => .next u) fun _ _ => of_next hs rfl
  | popR r => exact of_popOs (k := fun w u => .next (u.writeReg r w)) fun _ _ => of_next hs rfl
  | popAtV v => exact of_popToRam (s := s.past .i) hs v
  | popAtR r => exact of_popToRam (s := s.past .r) hs _
  | pushV v => exact of_pushOs (s := s.past .i) hs v
  | pushR r => exact of_pushOs (s := s.past .r) hs _
  | pushAtV v => exact of_pushFromRam (s := s.past .i) hs v
  | pushAtR r => exact of_pushFromRam (s := s.past .r) hs _
  | add => exact of_binaryArith hs _ _
  | sub => exact of_binaryArith hs _ _
  | mul => exact of_binaryArith hs _ _
  | div => exact of_binaryArith hs _ _
  | sqrt => exact of_popOs fun _ rest => of_pushResult (s := (s.past .n).setOs rest) hs _ _ _
  | dup => exact of_popOs (k := fun w _ => pushOs w (s.past .n)) fun w _ => of_pushOs (s := s.past .n) hs w
  | jmp d => exact of_jumpTo (s := s.past .j) hs _
  | jmpe d => exact of_condJump hs _ d
  | jmpne d => exact of_condJump hs _ d
  | jmpl d => exact of_condJump hs _ d
  | jmple d => exact of_condJump hs _ d
  | jmpg d => exact of_condJump hs _ d
  | jmpge d => exact of_condJump hs _ d
  | call d => exact of_execCall hs d
  | ret => exact of_popCs (k := fun n u => .next (u.setPc n)) fun _ _ => of_next hs rfl
  | hlt => exact fun _ hk => nomatch hk

/-- So a running machine's instruction never leaves it in an error of another kind. -/
theorem exec_status_ne_error {i : Instr} {s t : State} (hrun : s.status = .running) (h : exec i s = .next t)
    {k : ErrorKind} (hk : k ∉ executeErrors) : t.status ≠ .error k := by
  have hraises := exec_raisesOnlyExecuteErrors i (s := s) (by simp [hrun])
  rw [h] at hraises
  exact fun ht => hk (hraises k ht)

end Sys2Proof.Machine

open Sys2Proof Sys2Proof.Machine

/-- Settles O47. -/
theorem underflowIsCheckedBeforeAnyPop : Obligations.UnderflowIsCheckedBeforeAnyPop :=
  ⟨fun _ _ _ _ hos hi => exec_of_empty hi (List.length_eq_zero_iff.1 (Nat.lt_one_iff.1 hos)),
    fun _ _ _ hos hi => exec_of_fewer_than_two hi hos,
    fun _ hcs => exec_ret_of_empty (List.length_eq_zero_iff.1 (Nat.lt_one_iff.1 hcs))⟩

/-- Settles O48: an executed instruction raises none of the three kinds, and of the errors at decoding only the bad
register byte raises one of them. -/
theorem invalidRegisterHasOneCause : Obligations.InvalidRegisterHasOneCause := by
  intro s t hrun hstep
  obtain ⟨hstopped, -⟩ | ⟨-, ⟨i, hdecode, hexec⟩ | ⟨e, hdecode, hstop⟩⟩ := step_next.1 hstep
  · exact absurd hrun hstopped
  · have hne {k : ErrorKind} (hk : k ∉ executeErrors) : t.status ≠ .error k := exec_status_ne_error hrun hexec hk
    exact ⟨iff_of_false (hne (by decide)) (by simp [hdecode]), hne (by decide), hne (by decide)⟩
  · obtain ⟨rfl, rfl⟩ | ⟨rfl, rfl⟩ | ⟨rfl, rfl⟩ := decodeStop_next.1 hstop
    all_goals simp [hdecode]

/-- Settles O51. -/
theorem exitCodesAreDistinctAndNonZero : Obligations.ExitCodesAreDistinctAndNonZero :=
  ⟨rfl, rfl, rfl, fun _ => rfl, fun _ => rfl⟩

end
